-- ==== Sys2Proof/Word.lean ====
section
/-! DEFINITION. The widths of the machine's values (00_scope.md R9, R11). -/

namespace Sys2Proof

/-- A u8: a general register, a timer, SP, a byte of memory or of the stack (R11). -/
abbrev Byte := BitVec 8

/-- A u16: PC, I, an instruction word (R11, R16). -/
abbrev Word := BitVec 16

/-- The number of a general register, 0 to 15 (R21); also a key index (R251). -/
abbrev Reg := Fin 16

/-- VF, the sixteenth general register and the flag output (R22). -/
abbrev VF : Reg := 15

end Sys2Proof
end

