-- ==== Sys2Proof/Syntax.lean ====
section
/-! DEFINITION. The instruction set: one constructor per row of the table of 30_encoding.md R85 (34 rows). -/

namespace Sys2Proof

/-- One instruction with its operands (R81, R82). X and Y are register numbers, NN an 8-bit immediate, NNN a 12-bit
address, N the number of sprite rows. Y of SHR and SHL has no effect but stays, since the word carries it (R88). -/
inductive Instr where
  /-- 00E0 CLS (R190) -/
  | cls
  /-- 00EE RET (R121) -/
  | ret
  /-- 1NNN JP nnn (R122) -/
  | jp (nnn : BitVec 12)
  /-- 2NNN CALL nnn (R123) -/
  | call (nnn : BitVec 12)
  /-- 3XNN SE Vx, nn (R124) -/
  | seImm (x : Reg) (nn : Byte)
  /-- 4XNN SNE Vx, nn (R125) -/
  | sneImm (x : Reg) (nn : Byte)
  /-- 5XY0 SE Vx, Vy (R126) -/
  | seReg (x y : Reg)
  /-- 6XNN LD Vx, nn (R140) -/
  | ldImm (x : Reg) (nn : Byte)
  /-- 7XNN ADD Vx, nn (R141) -/
  | addImm (x : Reg) (nn : Byte)
  /-- 8XY0 LD Vx, Vy (R142) -/
  | ldReg (x y : Reg)
  /-- 8XY1 OR Vx, Vy (R143) -/
  | orReg (x y : Reg)
  /-- 8XY2 AND Vx, Vy (R144) -/
  | andReg (x y : Reg)
  /-- 8XY3 XOR Vx, Vy (R145) -/
  | xorReg (x y : Reg)
  /-- 8XY4 ADD Vx, Vy (R146) -/
  | addReg (x y : Reg)
  /-- 8XY5 SUB Vx, Vy (R147) -/
  | subReg (x y : Reg)
  /-- 8XY6 SHR Vx, Vy (R148) -/
  | shr (x y : Reg)
  /-- 8XY7 SUBN Vx, Vy, which writes Vy (R149) -/
  | subn (x y : Reg)
  /-- 8XYE SHL Vx, Vy (R150) -/
  | shl (x y : Reg)
  /-- 9XY0 SNE Vx, Vy (R127) -/
  | sneReg (x y : Reg)
  /-- ANNN LD I, nnn (R170) -/
  | ldI (nnn : BitVec 12)
  /-- BNNN JP V0, nnn (R128) -/
  | jpV0 (nnn : BitVec 12)
  /-- CXNN RND Vx, nn (R151) -/
  | rnd (x : Reg) (nn : Byte)
  /-- DXYN DRW Vx, Vy, n (R192) -/
  | drw (x y : Reg) (n : Nat)
  /-- EX9E SKP Vx (R210) -/
  | skp (x : Reg)
  /-- EXA1 SKNP Vx (R211) -/
  | sknp (x : Reg)
  /-- FX07 LD Vx, DT (R212) -/
  | ldVxDT (x : Reg)
  /-- FX0A LD Vx, K (R213) -/
  | ldVxK (x : Reg)
  /-- FX15 LD DT, Vx (R214) -/
  | ldDTVx (x : Reg)
  /-- FX18 LD ST, Vx (R215) -/
  | ldSTVx (x : Reg)
  /-- FX1E ADD I, Vx (R171) -/
  | addI (x : Reg)
  /-- FX29 LD F, Vx (R172) -/
  | ldF (x : Reg)
  /-- FX33 LD B, Vx (R173) -/
  | ldB (x : Reg)
  /-- FX55 LD [I], Vx (R174) -/
  | storeRegs (x : Reg)
  /-- FX65 LD Vx, [I] (R175) -/
  | loadRegs (x : Reg)
  deriving DecidableEq, Repr

end Sys2Proof
end

