-- ==== Sys2Proof/Decode.lean ====
section
/-! DEFINITION. From words to instructions and back (30_encoding.md): the fields (R81), the decoder by the opcode map of
R84, the encoder by the encodings of the instruction rules, and the match-and-mask table of R85 with the scan of R86, which
the decoder is stated to equal. -/

namespace Sys2Proof

/-- `hi ++ lo` of R11: the u16 whose high byte is `hi`. -/
def joinBytes (hi lo : Byte) : Word := hi ++ lo

/-- v[15:8] (R10). -/
def highByte (w : Word) : Byte := w.extractLsb' 8 8

/-- v[7:0] (R10). -/
def lowByte (w : Word) : Byte := w.extractLsb' 0 8

/-- F = w[15:12], the opcode family (R81). -/
def fieldF (w : Word) : BitVec 4 := w.extractLsb' 12 4

/-- X = w[11:8] (R81). -/
def fieldX (w : Word) : Reg := (w.extractLsb' 8 4).toFin

/-- Y = w[7:4] (R81). -/
def fieldY (w : Word) : Reg := (w.extractLsb' 4 4).toFin

/-- N = w[3:0] (R81). -/
def fieldN (w : Word) : BitVec 4 := w.extractLsb' 0 4

/-- NN = w[7:0] (R81). -/
def fieldNN (w : Word) : Byte := w.extractLsb' 0 8

/-- NNN = w[11:0] (R81). -/
def fieldNNN (w : Word) : BitVec 12 := w.extractLsb' 0 12

/-- Why bytes are no instruction. `truncated`: fewer than two bytes are given (R80: every instruction has two; the fetch of a
machine never gives fewer). `invalidWord`: the word matches no row (R87). -/
inductive Reject where
  | truncated
  | invalidWord (w : Word)
  deriving DecidableEq, Repr

/-- Family 8: the register operation that N selects (R84). -/
def decodeFamily8 (w : Word) : Except Reject Instr :=
  match fieldN w with
  | 0x0#4 => .ok (.ldReg (fieldX w) (fieldY w))
  | 0x1#4 => .ok (.orReg (fieldX w) (fieldY w))
  | 0x2#4 => .ok (.andReg (fieldX w) (fieldY w))
  | 0x3#4 => .ok (.xorReg (fieldX w) (fieldY w))
  | 0x4#4 => .ok (.addReg (fieldX w) (fieldY w))
  | 0x5#4 => .ok (.subReg (fieldX w) (fieldY w))
  | 0x6#4 => .ok (.shr (fieldX w) (fieldY w))
  | 0x7#4 => .ok (.subn (fieldX w) (fieldY w))
  | 0xE#4 => .ok (.shl (fieldX w) (fieldY w))
  | _ => .error (.invalidWord w)

/-- Family E: the key test that NN selects (R84). -/
def decodeFamilyE (w : Word) : Except Reject Instr :=
  match fieldNN w with
  | 0x9E#8 => .ok (.skp (fieldX w))
  | 0xA1#8 => .ok (.sknp (fieldX w))
  | _ => .error (.invalidWord w)

/-- Family F: the operation that NN selects (R84). -/
def decodeFamilyF (w : Word) : Except Reject Instr :=
  match fieldNN w with
  | 0x07#8 => .ok (.ldVxDT (fieldX w))
  | 0x0A#8 => .ok (.ldVxK (fieldX w))
  | 0x15#8 => .ok (.ldDTVx (fieldX w))
  | 0x18#8 => .ok (.ldSTVx (fieldX w))
  | 0x1E#8 => .ok (.addI (fieldX w))
  | 0x29#8 => .ok (.ldF (fieldX w))
  | 0x33#8 => .ok (.ldB (fieldX w))
  | 0x55#8 => .ok (.storeRegs (fieldX w))
  | 0x65#8 => .ok (.loadRegs (fieldX w))
  | _ => .error (.invalidWord w)

/-- The decoder (R86): total on words, by the opcode map of R84. -/
def decodeWord (w : Word) : Except Reject Instr :=
  match fieldF w with
  | 0x0#4 =>
    if w = 0x00E0#16 then .ok .cls
    else if w = 0x00EE#16 then .ok .ret
    else .error (.invalidWord w)
  | 0x1#4 => .ok (.jp (fieldNNN w))
  | 0x2#4 => .ok (.call (fieldNNN w))
  | 0x3#4 => .ok (.seImm (fieldX w) (fieldNN w))
  | 0x4#4 => .ok (.sneImm (fieldX w) (fieldNN w))
  | 0x5#4 => if fieldN w = 0x0#4 then .ok (.seReg (fieldX w) (fieldY w)) else .error (.invalidWord w)
  | 0x6#4 => .ok (.ldImm (fieldX w) (fieldNN w))
  | 0x7#4 => .ok (.addImm (fieldX w) (fieldNN w))
  | 0x8#4 => decodeFamily8 w
  | 0x9#4 => if fieldN w = 0x0#4 then .ok (.sneReg (fieldX w) (fieldY w)) else .error (.invalidWord w)
  | 0xA#4 => .ok (.ldI (fieldNNN w))
  | 0xB#4 => .ok (.jpV0 (fieldNNN w))
  | 0xC#4 => .ok (.rnd (fieldX w) (fieldNN w))
  | 0xD#4 => .ok (.drw (fieldX w) (fieldY w) (fieldN w).toNat)
  | 0xE#4 => decodeFamilyE w
  | 0xF#4 => decodeFamilyF w
  | _ => .error (.invalidWord w)   -- no sixteen-and-first nibble exists: Lean asks for the case

/-- Decoding bytes: one instruction from the front, high byte first (R54, R80), and the bytes after it. -/
def decode : List Byte → Except Reject (Instr × List Byte)
  | hi :: lo :: rest =>
    match decodeWord (joinBytes hi lo) with
    | .ok i => .ok (i, rest)
    | .error e => .error e
  | _ => .error .truncated

/-- Format ADDR: F NNN (R83). -/
def wordAddr (f : BitVec 4) (nnn : BitVec 12) : Word := f ++ nnn

/-- Formats REG_IMM and REG_SUB: F X NN (R83). -/
def wordRegByte (f : BitVec 4) (x : Reg) (nn : Byte) : Word := (f ++ BitVec.ofFin (w := 4) x) ++ nn

/-- Formats REG_REG and REG_REG_N: F X Y N (R83). -/
def wordRegReg (f : BitVec 4) (x y : Reg) (n : BitVec 4) : Word :=
  ((f ++ BitVec.ofFin (w := 4) x) ++ BitVec.ofFin (w := 4) y) ++ n

/-- The word of an instruction, by the "Encoding" line of its rule (41 to 45). N above 15 keeps its low four bits. -/
def encode : Instr → Word
  | .cls => 0x00E0
  | .ret => 0x00EE
  | .jp nnn => wordAddr 0x1 nnn
  | .call nnn => wordAddr 0x2 nnn
  | .seImm x nn => wordRegByte 0x3 x nn
  | .sneImm x nn => wordRegByte 0x4 x nn
  | .seReg x y => wordRegReg 0x5 x y 0x0
  | .ldImm x nn => wordRegByte 0x6 x nn
  | .addImm x nn => wordRegByte 0x7 x nn
  | .ldReg x y => wordRegReg 0x8 x y 0x0
  | .orReg x y => wordRegReg 0x8 x y 0x1
  | .andReg x y => wordRegReg 0x8 x y 0x2
  | .xorReg x y => wordRegReg 0x8 x y 0x3
  | .addReg x y => wordRegReg 0x8 x y 0x4
  | .subReg x y => wordRegReg 0x8 x y 0x5
  | .shr x y => wordRegReg 0x8 x y 0x6
  | .subn x y => wordRegReg 0x8 x y 0x7
  | .shl x y => wordRegReg 0x8 x y 0xE
  | .sneReg x y => wordRegReg 0x9 x y 0x0
  | .ldI nnn => wordAddr 0xA nnn
  | .jpV0 nnn => wordAddr 0xB nnn
  | .rnd x nn => wordRegByte 0xC x nn
  | .drw x y n => wordRegReg 0xD x y (BitVec.ofNat 4 n)
  | .skp x => wordRegByte 0xE x 0x9E
  | .sknp x => wordRegByte 0xE x 0xA1
  | .ldVxDT x => wordRegByte 0xF x 0x07
  | .ldVxK x => wordRegByte 0xF x 0x0A
  | .ldDTVx x => wordRegByte 0xF x 0x15
  | .ldSTVx x => wordRegByte 0xF x 0x18
  | .addI x => wordRegByte 0xF x 0x1E
  | .ldF x => wordRegByte 0xF x 0x29
  | .ldB x => wordRegByte 0xF x 0x33
  | .storeRegs x => wordRegByte 0xF x 0x55
  | .loadRegs x => wordRegByte 0xF x 0x65

/-- The two bytes of an instruction as memory holds them (R54). -/
def encodeBytes (i : Instr) : List Byte := [highByte (encode i), lowByte (encode i)]

/-- One row of the table of R85: a word w is of the row when w & mask = pattern, and then holds the instruction `read w`. -/
structure OpcodeRow where
  pattern : Word
  mask    : Word
  read    : Word → Instr

/-- The table of R85, rows 1 to 34 in order. -/
def opcodeTable : List OpcodeRow :=
  [ ⟨0x00E0, 0xFFFF, fun _ => .cls⟩,
    ⟨0x00EE, 0xFFFF, fun _ => .ret⟩,
    ⟨0x1000, 0xF000, fun w => .jp (fieldNNN w)⟩,
    ⟨0x2000, 0xF000, fun w => .call (fieldNNN w)⟩,
    ⟨0x3000, 0xF000, fun w => .seImm (fieldX w) (fieldNN w)⟩,
    ⟨0x4000, 0xF000, fun w => .sneImm (fieldX w) (fieldNN w)⟩,
    ⟨0x5000, 0xF00F, fun w => .seReg (fieldX w) (fieldY w)⟩,
    ⟨0x6000, 0xF000, fun w => .ldImm (fieldX w) (fieldNN w)⟩,
    ⟨0x7000, 0xF000, fun w => .addImm (fieldX w) (fieldNN w)⟩ ] ++
  [ ⟨0x8000, 0xF00F, fun w => .ldReg (fieldX w) (fieldY w)⟩,
    ⟨0x8001, 0xF00F, fun w => .orReg (fieldX w) (fieldY w)⟩,
    ⟨0x8002, 0xF00F, fun w => .andReg (fieldX w) (fieldY w)⟩,
    ⟨0x8003, 0xF00F, fun w => .xorReg (fieldX w) (fieldY w)⟩,
    ⟨0x8004, 0xF00F, fun w => .addReg (fieldX w) (fieldY w)⟩,
    ⟨0x8005, 0xF00F, fun w => .subReg (fieldX w) (fieldY w)⟩,
    ⟨0x8006, 0xF00F, fun w => .shr (fieldX w) (fieldY w)⟩,
    ⟨0x8007, 0xF00F, fun w => .subn (fieldX w) (fieldY w)⟩,
    ⟨0x800E, 0xF00F, fun w => .shl (fieldX w) (fieldY w)⟩,
    ⟨0x9000, 0xF00F, fun w => .sneReg (fieldX w) (fieldY w)⟩ ] ++
  [ ⟨0xA000, 0xF000, fun w => .ldI (fieldNNN w)⟩,
    ⟨0xB000, 0xF000, fun w => .jpV0 (fieldNNN w)⟩,
    ⟨0xC000, 0xF000, fun w => .rnd (fieldX w) (fieldNN w)⟩,
    ⟨0xD000, 0xF000, fun w => .drw (fieldX w) (fieldY w) (fieldN w).toNat⟩,
    ⟨0xE09E, 0xF0FF, fun w => .skp (fieldX w)⟩,
    ⟨0xE0A1, 0xF0FF, fun w => .sknp (fieldX w)⟩,
    ⟨0xF007, 0xF0FF, fun w => .ldVxDT (fieldX w)⟩,
    ⟨0xF00A, 0xF0FF, fun w => .ldVxK (fieldX w)⟩,
    ⟨0xF015, 0xF0FF, fun w => .ldDTVx (fieldX w)⟩,
    ⟨0xF018, 0xF0FF, fun w => .ldSTVx (fieldX w)⟩,
    ⟨0xF01E, 0xF0FF, fun w => .addI (fieldX w)⟩,
    ⟨0xF029, 0xF0FF, fun w => .ldF (fieldX w)⟩,
    ⟨0xF033, 0xF0FF, fun w => .ldB (fieldX w)⟩,
    ⟨0xF055, 0xF0FF, fun w => .storeRegs (fieldX w)⟩,
    ⟨0xF065, 0xF0FF, fun w => .loadRegs (fieldX w)⟩ ]

/-- `w & row.mask == row.match` (R85). -/
def OpcodeRow.matches (r : OpcodeRow) (w : Word) : Bool := w &&& r.mask == r.pattern

/-- The scan of R86: the first row that the word is of, or Invalid. -/
def decodeByTable (w : Word) : Except Reject Instr :=
  match opcodeTable.find? (fun r => r.matches w) with
  | some r => .ok (r.read w)
  | none => .error (.invalidWord w)

/-- What the decoder reads from an instruction whose bits are `w` as spec/opcode_table.json numbers them: the table's one
word of 16 bits, laid out high byte first (R54). Bits from `nbits` up are zero. -/
def decodeTableWord (nbits w : Nat) : Option Instr :=
  let word : Word := BitVec.ofNat 16 (w % 2 ^ nbits)
  match decode [highByte word, lowByte word] with
  | .ok (i, _) => some i
  | .error _ => none

end Sys2Proof
end

