-- ==== Sys2Proof/Config.lean ====
section
/-! DEFINITION. The implementation parameters (00_scope.md R9), the driver's commands (60_exceptions.md R250) and the
one free value of the model, the commands that a driver goes on to issue. -/

namespace Sys2Proof

/-- MEM_BYTES (R9): addresses 0x000 to 0xFFF exist. -/
abbrev memBytes : Nat := 4096

/-- PROG_BASE (R9): where Load puts the image and PC. -/
abbrev progBase : Nat := 0x200

/-- MAX_IMAGE (R9): 3584 bytes. -/
abbrev maxImage : Nat := memBytes - progBase

/-- STACK_BYTES (R9, R31): 16 frames of 2 bytes. DESIGN CHOICE of the spec (D2), log 9. -/
abbrev stackBytes : Nat := 32

/-- FONT_GLYPHS * GLYPH_BYTES (R9, R52). -/
abbrev fontBytes : Nat := 80

/-- FB_W (R9). -/
abbrev fbWidth : Nat := 64

/-- FB_H (R9). -/
abbrev fbHeight : Nat := 32

/-- What differs between two machines of this spec: FONT (R53) and DIRTY_AT_RESET (R40). A State carries its own, so a
statement about every state is about every FONT. Logs 1 and 2. -/
structure Config where
  font         : Vector Byte fontBytes
  dirtyAtReset : Bool
  deriving DecidableEq, Repr

/-- The default FONT, glyphs 0 to F in order (R53). PRESUMED by the spec (D3, G1), log 1. -/
def Config.conventionalFont : Vector Byte fontBytes :=
  #v[0xF0, 0x90, 0x90, 0x90, 0xF0,  0x20, 0x60, 0x20, 0x20, 0x70,
     0xF0, 0x10, 0xF0, 0x80, 0xF0,  0xF0, 0x10, 0xF0, 0x10, 0xF0,
     0x90, 0x90, 0xF0, 0x10, 0x10,  0xF0, 0x80, 0xF0, 0x10, 0xF0,
     0xF0, 0x80, 0xF0, 0x90, 0xF0,  0xF0, 0x10, 0x20, 0x40, 0x40,
     0xF0, 0x90, 0xF0, 0x90, 0xF0,  0xF0, 0x90, 0xF0, 0x10, 0xF0,
     0xF0, 0x90, 0xF0, 0x90, 0x90,  0xE0, 0x90, 0xE0, 0x90, 0xE0,
     0xF0, 0x80, 0x80, 0x80, 0xF0,  0xE0, 0x90, 0x90, 0x90, 0xE0,
     0xF0, 0x80, 0xF0, 0x80, 0xF0,  0xF0, 0x80, 0xF0, 0x80, 0x80]

/-- The defaults of R9: the conventional font, DIRTY_AT_RESET false. -/
def Config.standard : Config := { font := Config.conventionalFont, dirtyAtReset := false }

/-- The inputs of one Step: `keys[k]` says whether key k is pressed (R251), `rnd` is the random byte (R252). -/
structure StepInput where
  keys : BitVec 16
  rnd  : Byte
  deriving DecidableEq, Repr, Inhabited

/-- The commands of the driver and of the frame consumer (R250). -/
inductive Command where
  | reset
  | load (image : List Byte)
  | step (input : StepInput)
  | tick
  | clearDirty
  deriving DecidableEq, Repr, Inhabited

/-- The commands that the driver issues once the listed ones are used up: free, since every interleaving is a possible
run (R247) and the inputs of a Step may be anything (R251, R252). Log 3. -/
opaque Config.driverCommand : Nat → Command

end Sys2Proof
end

