-- ==== Sys2Proof/Machine/State.lean ====
section
/-! DEFINITION. What the machine holds (10_state.md), as plain data, and its value right after reset (R40). -/

namespace Sys2Proof.Machine

/-- The halting errors with their payloads (60_exceptions.md R231). -/
inductive HaltError where
  /-- code 2, raised by 2NNN on a full stack; payload SP -/
  | stackOverflow (sp : Byte)
  /-- code 3, raised by 00EE on an empty stack; payload SP -/
  | stackUnderflow (sp : Byte)
  /-- code 4, raised by the fetch, DXYN, FX33, FX55, FX65; payload the lowest out-of-range address -/
  | outOfMemory (addr : Nat)
  /-- code 5, raised by EX9E and EXA1; payload V[X] -/
  | keyIndexOutOfRange (v : Byte)
  deriving DecidableEq, Repr

/-- The errors with their payloads, all five (60_exceptions.md R231). Which of them halt is R233: DecodeError does not, and OutOfMemory
reported by Load does not. -/
inductive CoreError where
  /-- code 1, raised by a Step on an invalid word; payload the word and its address -/
  | decodeError (w a : Word)
  /-- code 2; payload SP -/
  | stackOverflow (sp : Byte)
  /-- code 3; payload SP -/
  | stackUnderflow (sp : Byte)
  /-- code 4, raised by a step or by Load; payload the lowest out-of-range address -/
  | outOfMemory (addr : Nat)
  /-- code 5; payload V[X] -/
  | keyIndexOutOfRange (v : Byte)
  deriving DecidableEq, Repr

/-- STATUS (R37). -/
inductive Status where
  | running
  | halted (e : HaltError)
  deriving DecidableEq, Repr

/-- The outcome of the last Step (40_step_cycle.md R100) or Load (R273), which the driver reads between commands (R253).
`none`: neither has been issued since construction or Reset. Log 5. -/
inductive Report where
  | none
  | executed
  | keyWaiting
  | keyResolved (k : Reg)
  | decodeError (w : Word) (a : Word)
  | fault (e : HaltError)
  | halted (e : HaltError)
  | loaded
  | loadOutOfMemory (addr : Nat)
  deriving DecidableEq, Repr

/-- V[0] to V[15] (R21). -/
abbrev Registers := Vector Byte 16

/-- The cells of M that differ from the reset contents, at strictly rising addresses (log 22). -/
abbrev Memory := List Host.Cell

/-- STK[0..31] (R30, R31). -/
abbrev StackBuffer := Vector Byte stackBytes

/-- FB, the 32 rows from top to bottom, each with its 64 pixels from left to right: row-major (R35). -/
abbrev FrameBuffer := Vector (Vector Bool fbWidth) fbHeight

/-- The machine (10_state.md, R20 for the sub-blocks), its parameters (00_scope.md R9), and what the driver is still to do
with it (60_exceptions.md R247, R250). -/
structure State where
  /-- V[0] to V[15] (R21) -/
  v        : Registers
  /-- PC (R24) -/
  pc       : Word
  /-- I (R25) -/
  i        : Word
  /-- SP, bytes used of the stack (R26) -/
  sp       : Byte
  /-- STK (R30) -/
  stk      : StackBuffer
  /-- DT (R27) -/
  dt       : Byte
  /-- ST (R28) -/
  st       : Byte
  /-- M (R34) -/
  mem      : Memory
  /-- FB (R35) -/
  fb       : FrameBuffer
  /-- DIRTY (R36) -/
  dirty    : Bool
  /-- KW: none is Inactive, some r is Pending(r) (R29) -/
  kw       : Option Reg
  /-- STATUS (R37) -/
  status   : Status
  /-- the outcome of the last Step or Load (R253) -/
  report   : Report
  /-- FONT and DIRTY_AT_RESET, the same for the machine's life (R9) -/
  cfg      : Config
  /-- the inputs of the Step being run (R100), the model's own field (log 4) -/
  input    : StepInput
  /-- the driver's commands to come, first one first (R247), the model's own field (log 3) -/
  schedule : List Command
  /-- how many commands past `schedule` have been taken, the model's own counter (log 3) -/
  issued   : Nat
  deriving DecidableEq, Repr

/-- How a step can stop. No instruction stops in a state that a run can reach: every error of the spec has an entry (R235),
which is a next state. -/
inductive Fault where
  /-- Raised by 00EE when SP holds more than STACK_BYTES, a value that R26 rules out and the spec gives no meaning. Safe: the
  model stops where the spec says nothing (log 11). -/
  | stackPointerOutsideBuffer
  deriving DecidableEq, Repr

/-- Why a step has no meaning. -/
inductive Refusal where
  /-- Raised by `exec` for an instruction without a meaning (there is none left). Safe. -/
  | notModelled (mnemonic : String)
  deriving DecidableEq, Repr

/-- The state of 10_state.md R40 for a machine with the parameters `c`: construction is a Reset (R271). Memory lists nothing,
since an unlisted address reads as the reset contents. -/
def State.resetWith (c : Config) : State where
  v        := Vector.replicate 16 0
  pc       := 0
  i        := 0
  sp       := 0
  stk      := Vector.replicate stackBytes 0
  dt       := 0
  st       := 0
  mem      := []
  fb       := Vector.replicate fbHeight (Vector.replicate fbWidth false)
  dirty    := c.dirtyAtReset
  kw       := none
  status   := .running
  report   := .none
  cfg      := c
  input    := { keys := 0, rnd := 0 }
  schedule := []
  issued   := 0

/-- The machine right after reset, with the default parameters (R9, R40). -/
def State.reset : State := State.resetWith Config.standard

end Sys2Proof.Machine
end

