-- ==== Sys2Proof/Machine/Flags.lean ====
section
/-! DEFINITION. What the instructions with a flag output put in VF (10_state.md R22, R38: VF is the only flag). -/

namespace Sys2Proof.Machine

/-- A flag as a register value: 1 or 0. -/
def flagByte (b : Bool) : Byte := if b then 1 else 0

/-- 8XY4: carry out of bit 7, the exact sum exceeds 255 (R146). -/
def carryFlag (x y : Byte) : Byte := flagByte (decide (x.toNat + y.toNat > 255))

/-- 8XY5 and 8XY7: the minuend is strictly greater than the subtrahend (R147, R149, 90_conflicts.md C4). -/
def greaterFlag (minuend subtrahend : Byte) : Byte := flagByte (decide (minuend.toNat > subtrahend.toNat))

/-- 8XY6: bit 0 before the shift (R148). -/
def shiftOutLow (x : Byte) : Byte := x &&& 1

/-- 8XYE: bit 7 before the shift (R150). -/
def shiftOutHigh (x : Byte) : Byte := x >>> 7

/-- DXYN: whether a drawn bit fell on a lit pixel (44_display.md R193). -/
def collisionFlag (collide : Bool) : Byte := flagByte collide

end Sys2Proof.Machine
end

