-- ==== Sys2Proof/Machine/Operands.lean ====
section
/-! DEFINITION. Operand forms and address arithmetic: widening (00_scope.md R11), the one data addressing mode, I plus an
offset (43_index_memory.md R176), the range check (20_memory.md R56, R57), the glyph address, BCD digits, sprite bits. -/

namespace Sys2Proof.Machine

/-- `zext_16` of a u8 (R11). -/
def zextByte (b : Byte) : Word := b.setWidth 16

/-- `zext_16` of a 12-bit address (R82). -/
def zextAddr (nnn : BitVec 12) : Word := nnn.setWidth 16

/-- The check of a range of `len` bytes from `base`, addresses unbounded (R56): none when every byte exists or the range is
empty; otherwise the lowest out-of-range address (R57). -/
def outOfRange (base len : Nat) : Option Nat :=
  if len = 0 ∨ base + len ≤ memBytes then none else some (max base memBytes)

/-- Bytes that FX55 and FX65 move: V[0] to V[X] (R174, R175). -/
def regCount (x : Reg) : Nat := x.val + 1

/-- FX29: Vx * 5, the whole byte (R172). -/
def glyphAddress (b : Byte) : Word := zextByte b * 5

/-- FX33: hundreds, tens and ones (R173). -/
def bcdDigits (b : Byte) : List Byte :=
  [BitVec.ofNat 8 (b.toNat / 100), BitVec.ofNat 8 (b.toNat / 10 % 10), BitVec.ofNat 8 (b.toNat % 10)]

/-- Column offset c (0 to 7) of a sprite row: bit 7 is leftmost (R191). DESIGN CHOICE of the spec (D4), log 16. -/
def spriteBit (b : Byte) (c : Nat) : Bool := b.getLsbD (7 - c)

/-- The column of sprite offset c from a sprite at x0: (x0 + c) mod 64 (R192). -/
def pixelColumn (x0 : Byte) (c : Nat) : Fin fbWidth := Fin.ofNat fbWidth (x0.toNat + c)

/-- The row of sprite row r from a sprite at y0: (y0 + r) mod 32 (R192). -/
def pixelRow (y0 : Byte) (r : Nat) : Fin fbHeight := Fin.ofNat fbHeight (y0.toNat + r)

/-- `Pressed(k)` (R251): bit k of the step's key sample. -/
def pressed (input : StepInput) (k : Nat) : Bool := input.keys.getLsbD k

/-- The key indexes in the order of the scan (40_step_cycle.md R102). -/
def keyIndexes : List Reg := [0, 1, 2, 3, 4, 5, 6, 7, 8, 9, 10, 11, 12, 13, 14, 15]

/-- The lowest pressed key (R102). -/
def firstPressed (input : StepInput) : Option Reg := keyIndexes.find? (fun k => pressed input k.val)

/-- Whether V[X] is a key index (45_timers_keys.md R216). -/
def isKeyIndex (b : Byte) : Bool := b.toNat ≤ 15

end Sys2Proof.Machine
end

