-- ==== Sys2Proof/Machine/Ops.lean ====
section
/-! DEFINITION. The operations that the meanings share: memory, registers, stack, frame buffer, the end of an instruction,
taking an error, and the commands other than Step (which include Reset, the one way back from an error). -/

namespace Sys2Proof.Machine

/-! ### Memory (20_memory.md) -/

/-- What an address reads as while nothing is listed for it: the reset contents, FONT at 0x000 to 0x04F and 0 above (R40,
R51, R53). -/
def Memory.background (c : Config) (a : Nat) : Byte := (c.font[a]?).getD 0

/-- The byte at an address: the listed one, else the reset contents (R60). -/
def Memory.read (c : Config) : Memory → Nat → Byte
  | [], a => Memory.background c a
  | (b, w) :: rest, a => if a = b then w else Memory.read c rest a

/-- Lists a byte for an address, in its place. -/
def Memory.insert : Memory → Nat → Byte → Memory
  | [], a, b => [(a, b)]
  | (a', b') :: rest, a, b =>
    if a < a' then (a, b) :: (a', b') :: rest
    else if a = a' then (a, b) :: rest
    else (a', b') :: Memory.insert rest a b

/-- Stores one byte, keeping the canonical form: a byte equal to the reset contents is not listed. -/
def Memory.write (c : Config) (m : Memory) (a : Nat) (b : Byte) : Memory :=
  if b = Memory.background c a then m.filter (fun cell => cell.1 != a) else Memory.insert m a b

/-- Stores bytes at consecutive ascending addresses (R55). -/
def Memory.writeBytes (c : Config) : Memory → Nat → List Byte → Memory
  | m, _, [] => m
  | m, a, b :: bs => Memory.writeBytes c (Memory.write c m a b) (a + 1) bs

/-- The canonical form: addresses strictly rising, each below MEM_BYTES, no byte equal to the reset contents. -/
abbrev Memory.wf (c : Config) (m : Memory) : Prop :=
  m.Pairwise (fun p q => p.1 < q.1) ∧ ∀ p ∈ m, p.1 < memBytes ∧ p.2 ≠ Memory.background c p.1

/-- `M[a]` (R12). The meanings read only after the range check (R57). -/
def State.readByte (s : State) (a : Nat) : Byte := Memory.read s.cfg s.mem a

/-- Stores bytes from `a` up. The meanings store only after the range check (R57). -/
def State.storeBytes (s : State) (a : Nat) (bs : List Byte) : State :=
  { s with mem := Memory.writeBytes s.cfg s.mem a bs }

/-! ### Registers (10_state.md R21) -/

/-- `V[r]`. -/
def State.getV (s : State) (r : Reg) : Byte := s.v[r]

/-- `V[r] <- b`. -/
def State.setV (s : State) (r : Reg) (b : Byte) : State := { s with v := s.v.set r.val b r.isLt }

/-- Puts `byteAt 0`, …, `byteAt (n - 1)` in the first n registers, in ascending order (R175). -/
def fillRegisters (byteAt : Nat → Byte) : Nat → Registers → Registers
  | 0, v => v
  | n + 1, v => (fillRegisters byteAt n v).setIfInBounds n (byteAt n)

/-- V[0] to V[n - 1], in ascending order (R174). -/
def State.firstRegisters (s : State) (n : Nat) : List Byte := s.v.toList.take n

/-! ### PC (10_state.md R24) -/

/-- The advance of the fetch: PC <- a + 2 modulo 2^16 (40_step_cycle.md R105). -/
def State.advance (s : State) : State := { s with pc := s.pc + 2 }

/-- `skip` (41_control_flow.md R120) when the condition holds. -/
def State.skipIf (s : State) (b : Bool) : State := { s with pc := if b then s.pc + 2 else s.pc }

/-! ### The end of an instruction, and errors -/

/-- The instruction's writes and the PC advance are committed together, the outcome is Executed (R108). -/
def State.complete (s : State) : Host.Outcome State Fault Refusal := .next { s with report := .executed }

/-- Error entry, shared by every halting error (60_exceptions.md R235, 40_step_cycle.md R108): `s` is the state before the
step, of which nothing changes but STATUS; the outcome is Fault(e). Log 6. -/
def State.raiseError (s : State) (e : HaltError) : Host.Outcome State Fault Refusal :=
  .next { s with status := .halted e, report := .fault e }

/-- Return from an error: only the Reset command ends a halt (60_exceptions.md R236). It puts every piece of state at its
value of R40 (70_reset_and_hazards.md R270), for the machine's own parameters; the driver's commands to come stay. -/
def State.resetCommand (s : State) : State :=
  { State.resetWith s.cfg with schedule := s.schedule, issued := s.issued }

/-- An invalid word is reported and skipped: only PC changes (40_step_cycle.md R107). Log 7. -/
def State.skipInvalid (s : State) (w : Word) : State :=
  { s.advance with report := .decodeError w s.pc }

/-! ### The call stack (10_state.md R32, R33) -/

/-- Push(v): none when the stack is full, otherwise the high byte at STK[SP] and the low byte at STK[SP + 1]. -/
def State.push (s : State) (w : Word) : Option State :=
  if s.sp.toNat + 2 > stackBytes then none
  else some
    { s with
      stk := (s.stk.setIfInBounds s.sp.toNat (highByte w)).setIfInBounds (s.sp.toNat + 1) (lowByte w)
      sp := s.sp + 2 }

/-- What Pop() can answer. -/
inductive Popped where
  | underflow
  /-- SP holds more than STACK_BYTES, which R26 rules out (log 11) -/
  | outsideBuffer
  | value (w : Word) (s : State)
  deriving DecidableEq, Repr

/-- Pop(): the frame below SP, high byte first; the bytes stay (D16). -/
def State.pop (s : State) : Popped :=
  if s.sp.toNat < 2 then .underflow
  else
    match s.stk[s.sp.toNat - 2]?, s.stk[s.sp.toNat - 1]? with
    | some hi, some lo => .value (joinBytes hi lo) { s with sp := s.sp - 2 }
    | _, _ => .outsideBuffer

/-! ### The frame buffer (10_state.md R35, 44_display.md) -/

/-- `FB[x][y]`: the pixel in column x and row y. -/
def FrameBuffer.pixel (fb : FrameBuffer) (x : Fin fbWidth) (y : Fin fbHeight) : Bool := fb[y][x]

/-- `FB[x][y] <- b`. -/
def FrameBuffer.setPixel (fb : FrameBuffer) (x : Fin fbWidth) (y : Fin fbHeight) (b : Bool) : FrameBuffer :=
  fb.set y.val (fb[y].set x.val b x.isLt) y.isLt

/-- All pixels false (R190). -/
def FrameBuffer.clear : FrameBuffer := Vector.replicate fbHeight (Vector.replicate fbWidth false)

/-- A draw in progress: the frame buffer and whether a collision has occurred. -/
structure Draw where
  fb      : FrameBuffer
  collide : Bool
  deriving DecidableEq, Repr

/-- One sprite bit onto one pixel: a 1 inverts it, and collides if it was true (R192, R193). -/
def Draw.bit (d : Draw) (x : Fin fbWidth) (y : Fin fbHeight) (b : Bool) : Draw :=
  if b then { fb := d.fb.setPixel x y (!d.fb.pixel x y), collide := d.collide || d.fb.pixel x y } else d

/-- The first n bits of one sprite row, left to right (R192: c from 0). -/
def Draw.bits (d : Draw) (x0 : Byte) (y : Fin fbHeight) (b : Byte) : Nat → Draw
  | 0 => d
  | n + 1 => (d.bits x0 y b n).bit (pixelColumn x0 n) y (spriteBit b n)

/-- The first n rows of a sprite whose row r is `rowByte r`, top to bottom (R192: r from 0). -/
def Draw.rows (d : Draw) (x0 y0 : Byte) (rowByte : Nat → Byte) : Nat → Draw
  | 0 => d
  | n + 1 => (d.rows x0 y0 rowByte n).bits x0 (pixelRow y0 n) (rowByte n) 8

/-- The sprite of n rows at memory[I..I+n), drawn at (V[X], V[Y]) onto the frame buffer (R192). -/
def State.drawSprite (s : State) (x y : Reg) (n : Nat) : Draw :=
  Draw.rows { fb := s.fb, collide := false } (s.getV x) (s.getV y) (fun r => s.readByte (s.i.toNat + r)) n

/-! ### The key wait and the commands other than Step and Reset -/

/-- A Step while KW = Pending(r): store the lowest pressed key and clear the latch, or wait (40_step_cycle.md R102). No
instruction is fetched and PC stays. Log 18. -/
def State.keyWaitStep (s : State) (r : Reg) : State :=
  match firstPressed s.input with
  | some k => { s.setV r (BitVec.ofNat 8 k.val) with kw := none, report := .keyResolved k }
  | none => { s with report := .keyWaiting }

/-- One timer's decrement, floored at 0 (R245). -/
def countDown (b : Byte) : Byte := if b.toNat > 0 then b - 1 else 0

/-- Tick: both timers, whatever STATUS and KW are (R245). -/
def State.tick (s : State) : State := { s with dt := countDown s.dt, st := countDown s.st }

/-- ClearDirty (R254). -/
def State.clearDirty (s : State) : State := { s with dirty := false }

/-- Load(image): copy to 0x200 and set PC, or report OutOfMemory(0x1000) and change nothing (70_reset_and_hazards.md R273). -/
def State.load (s : State) (image : List Byte) : State :=
  if image.length > maxImage then { s with report := .loadOutOfMemory memBytes }
  else { s.storeBytes progBase image with pc := BitVec.ofNat 16 progBase, report := .loaded }

/-! ### The driver -/

/-- The next command: the first of the schedule, else a free one (R247). -/
def State.nextCommand (s : State) : Command :=
  match s.schedule with
  | c :: _ => c
  | [] => Config.driverCommand s.issued

/-- The state once the next command has been taken from the driver. -/
def State.takeCommand (s : State) : State :=
  match s.schedule with
  | _ :: rest => { s with schedule := rest }
  | [] => { s with issued := s.issued + 1 }

/-- The inputs of a Step are sampled once, for the whole step (R251, R252). -/
def State.sample (s : State) (input : StepInput) : State := { s with input := input }

/-! ### Register forms of KW, STATUS and the error codes (D25, D28) -/

/-- KW as 5 bits, the fields KW_VALID (1 bit) and KW_REG (4 bits) of R29. DESIGN CHOICE, the model's (log 23): KW_VALID is bit 4 and
KW_REG bits 3 to 0, since R29 and D28 give no bit positions; and KW_REG of an inactive latch, which has no meaning, is 0. -/
def keyWaitBits : Option Reg → BitVec 5
  | none => 0
  | some r => (1#1) ++ BitVec.ofFin (w := 4) r

/-- The numeric code of an error (R231). -/
def CoreError.code : CoreError → BitVec 3
  | .decodeError _ _ => 1
  | .stackOverflow _ => 2
  | .stackUnderflow _ => 3
  | .outOfMemory _ => 4
  | .keyIndexOutOfRange _ => 5

/-- The payload of an error (R231), as numbers: of DecodeError the word and its address, of the others one number. -/
def CoreError.payload : CoreError → List Nat
  | .decodeError w a => [w.toNat, a.toNat]
  | .stackOverflow sp => [sp.toNat]
  | .stackUnderflow sp => [sp.toNat]
  | .outOfMemory a => [a]
  | .keyIndexOutOfRange v => [v.toNat]

/-- A halting error as one of the five. -/
def HaltError.error : HaltError → CoreError
  | .stackOverflow sp => .stackOverflow sp
  | .stackUnderflow sp => .stackUnderflow sp
  | .outOfMemory a => .outOfMemory a
  | .keyIndexOutOfRange v => .keyIndexOutOfRange v

/-- The error that the outcome of a Step or a Load carries: DecodeError(w, a), Fault(e) and Halted(e) of a Step (40_step_cycle.md
R100), OutOfMemory of a Load (70_reset_and_hazards.md R273). -/
def Report.error : Report → Option CoreError
  | .decodeError w a => some (.decodeError w a)
  | .fault e => some e.error
  | .halted e => some e.error
  | .loadOutOfMemory a => some (.outOfMemory a)
  | .none | .executed | .keyWaiting | .keyResolved _ | .loaded => Option.none

/-- The numeric code of an outcome: that of its error (R231). DESIGN CHOICE, the model's (log 23): 0 where it carries none. -/
def Report.code (r : Report) : BitVec 3 :=
  match r.error with
  | some e => e.code
  | Option.none => 0

/-- The numeric code of a halting error (R231). -/
def HaltError.code (e : HaltError) : BitVec 3 := e.error.code

/-- The payload register of a halting error (R231). -/
def HaltError.payload : HaltError → Nat
  | .stackOverflow sp => sp.toNat
  | .stackUnderflow sp => sp.toNat
  | .outOfMemory a => a
  | .keyIndexOutOfRange v => v.toNat

/-- STATUS as a 3-bit code (R37). -/
def Status.code : Status → BitVec 3
  | .running => 0
  | .halted e => e.code

/-! ### Placing an instruction (the host's test of one word) -/

/-- Where `withFetchWord` puts the word: at PC when both bytes exist there, else at PROG_BASE. -/
def State.placeAddress (s : State) : Nat := if s.pc.toNat + 2 ≤ memBytes then s.pc.toNat else progBase

/-- Makes the next command a Step, unless it is one: with no key pressed and rnd = 0, as the spec's own test vectors do
(95_test_vectors.md section 0). Log 21. -/
def stepNext : List Command → List Command
  | .step input :: rest => .step input :: rest
  | schedule => .step { keys := 0, rnd := 0 } :: schedule

/-- The word `w` stored where the next command fetches, in a state whose next command fetches: running, no key wait, a Step
next. Log 21. -/
def State.placeWord (s : State) (w : Word) : State :=
  { s.storeBytes s.placeAddress [highByte w, lowByte w] with
    pc := BitVec.ofNat 16 s.placeAddress
    status := .running
    kw := none
    schedule := stepNext s.schedule }

end Sys2Proof.Machine
end

