-- ==== Sys2Proof/Machine/Alu.lean ====
section
/-! DEFINITION. The meanings of 42_register_alu.md. None raises an error. Where an instruction has a destination and a flag,
the two are written in the order of its rule, which decides what VF holds when it is both (92_eei_decisions.md D5, log 12). -/

namespace Sys2Proof.Machine

/-- 6XNN: V[X] <- NN (R140). -/
def execLdImm (x : Reg) (nn : Byte) (s : State) : Host.Outcome State Fault Refusal :=
  (s.advance.setV x nn).complete

/-- 7XNN: V[X] <- V[X] + NN modulo 2^8, no flag (R141). -/
def execAddImm (x : Reg) (nn : Byte) (s : State) : Host.Outcome State Fault Refusal :=
  (s.advance.setV x (s.getV x + nn)).complete

/-- 8XY0: V[X] <- V[Y] (R142). -/
def execLdReg (x y : Reg) (s : State) : Host.Outcome State Fault Refusal :=
  (s.advance.setV x (s.getV y)).complete

/-- 8XY1: V[X] <- V[X] | V[Y] (R143). -/
def execOrReg (x y : Reg) (s : State) : Host.Outcome State Fault Refusal :=
  (s.advance.setV x (s.getV x ||| s.getV y)).complete

/-- 8XY2: V[X] <- V[X] & V[Y] (R144). -/
def execAndReg (x y : Reg) (s : State) : Host.Outcome State Fault Refusal :=
  (s.advance.setV x (s.getV x &&& s.getV y)).complete

/-- 8XY3: V[X] <- V[X] ^ V[Y] (R145). -/
def execXorReg (x y : Reg) (s : State) : Host.Outcome State Fault Refusal :=
  (s.advance.setV x (s.getV x ^^^ s.getV y)).complete

/-- 8XY4: V[X] <- sum modulo 2^8, then VF <- carry, both of the operands as read (R146). -/
def execAddReg (x y : Reg) (s : State) : Host.Outcome State Fault Refusal :=
  ((s.advance.setV x (s.getV x + s.getV y)).setV VF (carryFlag (s.getV x) (s.getV y))).complete

/-- 8XY5: V[X] <- V[X] - V[Y], then VF <- V[X] > V[Y], both of the operands as read (R147). -/
def execSubReg (x y : Reg) (s : State) : Host.Outcome State Fault Refusal :=
  ((s.advance.setV x (s.getV x - s.getV y)).setV VF (greaterFlag (s.getV x) (s.getV y))).complete

/-- 8XY6: VF <- bit 0 of V[X], then V[X] <- V[X] >> 1, read again; Y is ignored (R148). -/
def execShr (x _y : Reg) (s : State) : Host.Outcome State Fault Refusal :=
  let t := s.advance.setV VF (shiftOutLow (s.getV x))
  (t.setV x (t.getV x >>> 1)).complete

/-- 8XY7: V[Y] <- V[Y] - V[X], then VF <- V[Y] > V[X], both of the operands as read; the destination is Vy (R149). -/
def execSubn (x y : Reg) (s : State) : Host.Outcome State Fault Refusal :=
  ((s.advance.setV y (s.getV y - s.getV x)).setV VF (greaterFlag (s.getV y) (s.getV x))).complete

/-- 8XYE: VF <- bit 7 of V[X], then V[X] <- V[X] << 1 modulo 2^8, read again; Y is ignored (R150). -/
def execShl (x _y : Reg) (s : State) : Host.Outcome State Fault Refusal :=
  let t := s.advance.setV VF (shiftOutHigh (s.getV x))
  (t.setV x (t.getV x <<< 1)).complete

/-- CXNN: V[X] <- rnd & NN, rnd the step's random byte (R151). -/
def execRnd (x : Reg) (nn : Byte) (s : State) : Host.Outcome State Fault Refusal :=
  (s.advance.setV x (s.input.rnd &&& nn)).complete

end Sys2Proof.Machine
end

