-- ==== Sys2Proof/Machine/Control.lean ====
section
/-! DEFINITION. The meanings of 41_control_flow.md. Each takes the state before the step, with PC at the instruction. -/

namespace Sys2Proof.Machine

/-- 00EE: PC <- Pop(), or StackUnderflow (R121). -/
def execRet (s : State) : Host.Outcome State Fault Refusal :=
  match s.pop with
  | .value target t => State.complete { t with pc := target }
  | .underflow => s.raiseError (.stackUnderflow s.sp)
  | .outsideBuffer => .fault .stackPointerOutsideBuffer

/-- 1NNN: PC <- NNN (R122). -/
def execJp (nnn : BitVec 12) (s : State) : Host.Outcome State Fault Refusal :=
  State.complete { s with pc := zextAddr nnn }

/-- 2NNN: Push(a + 2), PC <- NNN, or StackOverflow (R123). -/
def execCall (nnn : BitVec 12) (s : State) : Host.Outcome State Fault Refusal :=
  match s.push s.advance.pc with
  | some t => State.complete { t with pc := zextAddr nnn }
  | none => s.raiseError (.stackOverflow s.sp)

/-- 3XNN: skip if V[X] = NN (R124). -/
def execSeImm (x : Reg) (nn : Byte) (s : State) : Host.Outcome State Fault Refusal :=
  (s.advance.skipIf (s.getV x == nn)).complete

/-- 4XNN: skip if V[X] != NN (R125). -/
def execSneImm (x : Reg) (nn : Byte) (s : State) : Host.Outcome State Fault Refusal :=
  (s.advance.skipIf (s.getV x != nn)).complete

/-- 5XY0: skip if V[X] = V[Y] (R126). -/
def execSeReg (x y : Reg) (s : State) : Host.Outcome State Fault Refusal :=
  (s.advance.skipIf (s.getV x == s.getV y)).complete

/-- 9XY0: skip if V[X] != V[Y] (R127). -/
def execSneReg (x y : Reg) (s : State) : Host.Outcome State Fault Refusal :=
  (s.advance.skipIf (s.getV x != s.getV y)).complete

/-- BNNN: PC <- NNN + V[0] modulo 2^16 (R128). -/
def execJpV0 (nnn : BitVec 12) (s : State) : Host.Outcome State Fault Refusal :=
  State.complete { s with pc := zextAddr nnn + zextByte (s.getV 0) }

end Sys2Proof.Machine
end

