-- ==== Sys2Proof/Machine/Display.lean ====
section
/-! DEFINITION. The meanings of 44_display.md. -/

namespace Sys2Proof.Machine

/-- 00E0: every pixel false, DIRTY true (R190). -/
def execCls (s : State) : Host.Outcome State Fault Refusal :=
  State.complete { s.advance with fb := FrameBuffer.clear, dirty := true }

/-- DXYN: n sprite rows from memory[I..I+n) XORed in at (V[X], V[Y]) with wraparound, VF <- collision, DIRTY true; the
coordinates are read before VF is written (R192). -/
def execDrw (x y : Reg) (n : Nat) (s : State) : Host.Outcome State Fault Refusal :=
  match outOfRange s.i.toNat n with
  | some a => s.raiseError (.outOfMemory a)
  | none =>
    let d := s.drawSprite x y n
    (State.setV { s.advance with fb := d.fb, dirty := true } VF (collisionFlag d.collide)).complete

end Sys2Proof.Machine
end

