-- ==== Sys2Proof/Machine/IndexMemory.lean ====
section
/-! DEFINITION. The meanings of 43_index_memory.md. The whole range is checked before any byte is touched (20_memory.md R57). -/

namespace Sys2Proof.Machine

/-- ANNN: I <- NNN (R170). -/
def execLdI (nnn : BitVec 12) (s : State) : Host.Outcome State Fault Refusal :=
  State.complete { s.advance with i := zextAddr nnn }

/-- FX1E: I <- I + V[X] modulo 2^16, no flag (R171). -/
def execAddI (x : Reg) (s : State) : Host.Outcome State Fault Refusal :=
  State.complete { s.advance with i := s.i + zextByte (s.getV x) }

/-- FX29: I <- V[X] * 5 (R172). -/
def execLdF (x : Reg) (s : State) : Host.Outcome State Fault Refusal :=
  State.complete { s.advance with i := glyphAddress (s.getV x) }

/-- FX33: the three decimal digits of V[X] to M[I], M[I + 1], M[I + 2] (R173). -/
def execLdB (x : Reg) (s : State) : Host.Outcome State Fault Refusal :=
  match outOfRange s.i.toNat 3 with
  | some a => s.raiseError (.outOfMemory a)
  | none => (s.advance.storeBytes s.i.toNat (bcdDigits (s.getV x))).complete

/-- FX55: V[0] to V[X] to memory[I..I+X], then I <- I + X + 1 (R174). -/
def execStoreRegs (x : Reg) (s : State) : Host.Outcome State Fault Refusal :=
  match outOfRange s.i.toNat (regCount x) with
  | some a => s.raiseError (.outOfMemory a)
  | none =>
    State.complete
      { s.advance.storeBytes s.i.toNat (s.firstRegisters (regCount x)) with i := s.i + BitVec.ofNat 16 (regCount x) }

/-- FX65: memory[I..I+X] to V[0] to V[X], then I <- I + X + 1 (R175). -/
def execLoadRegs (x : Reg) (s : State) : Host.Outcome State Fault Refusal :=
  match outOfRange s.i.toNat (regCount x) with
  | some a => s.raiseError (.outOfMemory a)
  | none =>
    State.complete
      { s.advance with
        v := fillRegisters (fun j => s.readByte (s.i.toNat + j)) (regCount x) s.v
        i := s.i + BitVec.ofNat 16 (regCount x) }

end Sys2Proof.Machine
end

