-- ==== Sys2Proof/Machine/TimersKeys.lean ====
section
/-! DEFINITION. The meanings of 45_timers_keys.md. -/

namespace Sys2Proof.Machine

/-- The key test of EX9E and EXA1: V[X] must be a key index (R216, log 8), then skip when the key's state is `want`. -/
def State.skipOnKey (s : State) (x : Reg) (want : Bool) : Host.Outcome State Fault Refusal :=
  if isKeyIndex (s.getV x) then (s.advance.skipIf (pressed s.input (s.getV x).toNat == want)).complete
  else s.raiseError (.keyIndexOutOfRange (s.getV x))

/-- EX9E: skip if key V[X] is pressed (R210). -/
def execSkp (x : Reg) (s : State) : Host.Outcome State Fault Refusal := s.skipOnKey x true

/-- EXA1: skip if key V[X] is not pressed (R211). -/
def execSknp (x : Reg) (s : State) : Host.Outcome State Fault Refusal := s.skipOnKey x false

/-- FX07: V[X] <- DT (R212). -/
def execLdVxDT (x : Reg) (s : State) : Host.Outcome State Fault Refusal := (s.advance.setV x s.dt).complete

/-- FX0A: KW <- Pending(X); the keys are looked at by later steps (R213). -/
def execLdVxK (x : Reg) (s : State) : Host.Outcome State Fault Refusal := State.complete { s.advance with kw := some x }

/-- FX15: DT <- V[X] (R214). -/
def execLdDTVx (x : Reg) (s : State) : Host.Outcome State Fault Refusal := State.complete { s.advance with dt := s.getV x }

/-- FX18: ST <- V[X] (R215). -/
def execLdSTVx (x : Reg) (s : State) : Host.Outcome State Fault Refusal := State.complete { s.advance with st := s.getV x }

end Sys2Proof.Machine
end

