-- ==== Sys2Proof/Machine/Cycle.lean ====
section
/-! DEFINITION. What one Step command does (40_step_cycle.md), and one command of the driver (60_exceptions.md R250). -/

namespace Sys2Proof.Machine

/-- The word at PC, high byte first (R104). -/
def State.fetchWord (s : State) : Word := joinBytes (s.readByte s.pc.toNat) (s.readByte (s.pc.toNat + 1))

/-- Fetch, decode, execute (R103 to R108). A fetch out of range is a halting error (R104), an invalid word is skipped (R107). -/
def State.fetchExecute (s : State) : Host.Outcome State Fault Refusal :=
  match outOfRange s.pc.toNat 2 with
  | some a => s.raiseError (.outOfMemory a)
  | none =>
    match decodeWord s.fetchWord with
    | .ok i => exec i s
    | .error _ => .next (s.skipInvalid s.fetchWord)

/-- The Step command, its inputs sampled: nothing while halted (R101), the key wait while one is pending (R102), else one
instruction (R103). -/
def State.stepCommand (s : State) : Host.Outcome State Fault Refusal :=
  match s.status with
  | .halted e => .next { s with report := .halted e }
  | .running =>
    match s.kw with
    | some r => .next (s.keyWaitStep r)
    | none => s.fetchExecute

/-- One command, atomically (R250). -/
def State.runCommand (s : State) : Command → Host.Outcome State Fault Refusal
  | .reset => .next s.resetCommand
  | .load image => .next (s.load image)
  | .step input => (s.sample input).stepCommand
  | .tick => .next s.tick
  | .clearDirty => .next s.clearDirty

end Sys2Proof.Machine
end

