-- ==== Sys2Proof/Machine/Step.lean ====
section
/-! DEFINITION. One step of the machine: the driver's next command, run to its end (60_exceptions.md R247, R250). -/

namespace Sys2Proof.Machine

/-- The next command is taken and run. -/
def step (s : State) : Host.Outcome State Fault Refusal := s.takeCommand.runCommand s.nextCommand

/-- `s` with the instruction whose bits are `w`, numbered as spec/opcode_table.json numbers them, stored where `step` fetches
next, so that `step` runs it (log 21). -/
def State.withFetchWord (s : State) (nbits w : Nat) : State := s.placeWord (BitVec.ofNat 16 (w % 2 ^ nbits))

end Sys2Proof.Machine
end

