-- ==== Sys2Proof/Safety.lean ====
section
/-! DEFINITION. The terms of the claims: the legal states (`State.Inv`), what a command keeps (`Footprint`, `Keeps`), the
stopped state (70_reset_and_hazards.md R281), sprites as sets of pixels (44_display.md). -/

namespace Sys2Proof.Machine

/-- SP is an even number from 0 to 32 (10_state.md R26). -/
def State.SpLegal (s : State) : Prop := s.sp.toNat ≤ stackBytes ∧ s.sp.toNat % 2 = 0

/-- The return address of frame j, the (j+1)-th pushed: STK[2j] ++ STK[2j + 1] (R30, R32). -/
def State.frame (s : State) (j : Nat) : Word := joinBytes ((s.stk[2 * j]?).getD 0) ((s.stk[2 * j + 1]?).getD 0)

/-- Every return address on the stack is a post-fetch PC, at most 0x1000 (20_memory.md R58). -/
def State.FramesLegal (s : State) : Prop := ∀ j, 2 * j + 2 ≤ s.sp.toNat → (s.frame j).toNat ≤ 0x1000

/-- PC never exceeds 0x10FE (R58). -/
def State.PcLegal (s : State) : Prop := s.pc.toNat ≤ 0x10FE

/-- A halting error's payload is one that its cause can leave (60_exceptions.md R231): a full or an empty stack, an address
outside memory, a value that is no key index. -/
def HaltError.Legal : HaltError → Prop
  | .stackOverflow sp => sp.toNat = stackBytes
  | .stackUnderflow sp => sp.toNat = 0
  | .outOfMemory a => memBytes ≤ a ∧ a < 0x10000
  | .keyIndexOutOfRange v => 15 < v.toNat

/-- STATUS is Running or a legal halt (R37). -/
def State.StatusLegal (s : State) : Prop := ∀ e, s.status = .halted e → e.Legal

/-- What every state that a run can reach satisfies. -/
structure State.Inv (s : State) : Prop where
  memory : Memory.wf s.cfg s.mem
  sp     : s.SpLegal
  frames : s.FramesLegal
  pc     : s.PcLegal
  status : s.StatusLegal

/-- What an instruction may write besides PC and the report: registers, I, the stack (STK and SP), the timers, the screen (FB
and DIRTY), the key-wait latch, and `storeLen` bytes of memory from `storeBase` up. -/
structure Footprint where
  regs      : List Reg := []
  index     : Bool := false
  stack     : Bool := false
  delay     : Bool := false
  sound     : Bool := false
  screen    : Bool := false
  keyWait   : Bool := false
  storeBase : Nat := 0
  storeLen  : Nat := 0

/-- From `s` to `t` nothing changes outside the footprint, save PC and the report. Memory is compared byte by byte. -/
structure Keeps (f : Footprint) (s t : State) : Prop where
  regs     : ∀ r, r ∉ f.regs → t.getV r = s.getV r
  index    : f.index = false → t.i = s.i
  stack    : f.stack = false → t.stk = s.stk ∧ t.sp = s.sp
  delay    : f.delay = false → t.dt = s.dt
  sound    : f.sound = false → t.st = s.st
  screen   : f.screen = false → t.fb = s.fb ∧ t.dirty = s.dirty
  keyWait  : f.keyWait = false → t.kw = s.kw
  memory   : ∀ a, a < f.storeBase ∨ f.storeBase + f.storeLen ≤ a → t.readByte a = s.readByte a
  status   : t.status = s.status
  cfg      : t.cfg = s.cfg
  input    : t.input = s.input
  schedule : t.schedule = s.schedule ∧ t.issued = s.issued

/-- `i` runs to its end in `s`: the outcome is a next state `t`, reported as Executed (40_step_cycle.md R108), which keeps
everything outside the footprint and satisfies `post`. -/
def Executes (i : Instr) (s : State) (f : Footprint) (post : State → Prop) : Prop :=
  ∃ t, exec i s = .next t ∧ t.report = .executed ∧ Keeps f s t ∧ post t

/-- The state after a halting error raised in `s`: nothing changes but STATUS, and the outcome is Fault(e) (R108, 60_exceptions.md
R235). A claim about a run takes it that no such state occurs in it, and does not read it (log 6). -/
def State.halt (s : State) (e : HaltError) : State := { s with status := .halted e, report := .fault e }

/-- The state in which a claim may read the machine's registers: not halted (R235). -/
def State.Trustworthy (s : State) : Prop := s.status = .running

/-- The error that an instruction raises in a state, by the table of 60_exceptions.md R232. -/
def raisedBy (s : State) : Instr → Option HaltError
  | .ret => if s.sp.toNat < 2 then some (.stackUnderflow s.sp) else none
  | .call _ => if s.sp.toNat + 2 > 32 then some (.stackOverflow s.sp) else none
  | .drw _ _ n => if 0 < n ∧ s.i.toNat + n - 1 ≥ 4096 then some (.outOfMemory (max s.i.toNat 4096)) else none
  | .ldB _ => if s.i.toNat + 2 ≥ 4096 then some (.outOfMemory (max s.i.toNat 4096)) else none
  | .storeRegs x => if s.i.toNat + x.val ≥ 4096 then some (.outOfMemory (max s.i.toNat 4096)) else none
  | .loadRegs x => if s.i.toNat + x.val ≥ 4096 then some (.outOfMemory (max s.i.toNat 4096)) else none
  | .skp x => if (s.getV x).toNat > 15 then some (.keyIndexOutOfRange (s.getV x)) else none
  | .sknp x => if (s.getV x).toNat > 15 then some (.keyIndexOutOfRange (s.getV x)) else none
  | .cls | .jp _ | .seImm _ _ | .sneImm _ _ | .seReg _ _ | .ldImm _ _ | .addImm _ _ | .ldReg _ _ | .orReg _ _
  | .andReg _ _ | .xorReg _ _ | .addReg _ _ | .subReg _ _ | .shr _ _ | .subn _ _ | .shl _ _ | .sneReg _ _ | .ldI _
  | .jpV0 _ | .rnd _ _ | .ldVxDT _ | .ldVxK _ | .ldDTVx _ | .ldSTVx _ | .addI _ | .ldF _ => none

/-- The registers that an instruction may write: its named destinations, and VF for the six flag instructions (10_state.md R22,
R23). -/
def writesRegister : Instr → Reg → Bool
  | .ldImm x _, r | .addImm x _, r | .rnd x _, r | .ldReg x _, r | .orReg x _, r | .andReg x _, r | .xorReg x _, r
  | .ldVxDT x, r => r == x
  | .addReg x _, r | .subReg x _, r | .shr x _, r | .shl x _, r => r == x || r == VF
  | .subn _ y, r => r == y || r == VF
  | .drw _ _ _, r => r == VF
  | .loadRegs x, r => r ≤ x
  | .cls, _ | .ret, _ | .jp _, _ | .call _, _ | .seImm _ _, _ | .sneImm _ _, _ | .seReg _ _, _ | .sneReg _ _, _ | .ldI _, _
  | .jpV0 _, _ | .skp _, _ | .sknp _, _ | .ldVxK _, _ | .ldDTVx _, _ | .ldSTVx _, _ | .addI _, _ | .ldF _, _ | .ldB _, _
  | .storeRegs _, _ => false

/-- The state in which the next command runs: that command has been taken from the driver's list, or counted when the list is
empty (60_exceptions.md R247). -/
def State.afterTaking (s : State) : State :=
  { s with schedule := s.schedule.tail, issued := if s.schedule = [] then s.issued + 1 else s.issued }

/-- The next command is a Step that fetches: running, no key wait, both bytes of the word exist (40_step_cycle.md R103, R104). -/
def State.Fetching (s : State) (input : StepInput) : Prop :=
  s.nextCommand = .step input ∧ s.status = .running ∧ s.kw = none ∧ s.pc.toNat + 2 ≤ memBytes

/-- Stopped at address a: running, not waiting, at a jump to itself (R281). -/
def State.StoppedAt (s : State) (a : BitVec 12) : Prop :=
  s.status = .running ∧ s.kw = none ∧ s.pc = zextAddr a ∧ a.toNat ≤ 0xFFE ∧
    joinBytes (s.readByte a.toNat) (s.readByte (a.toNat + 1)) = wordAddr 0x1 a

/-- `i` has exactly one word, the number `n` (its "Encoding" line: under its mask, every word with the pattern's bits is another
choice of operands). -/
def IsTheWordOf (n : Nat) (i : Instr) : Prop := ∀ w : Word, decodeWord w = .ok i ↔ w.toNat = n

/-- Some 1 bit of the sprite of n rows at memory[I..I+n) falls on pixel (px, py) when it is drawn at (x0, y0) (R191, R192). -/
def State.SpriteCovers (s : State) (x0 y0 : Byte) (n : Nat) (px : Fin fbWidth) (py : Fin fbHeight) : Prop :=
  ∃ r c : Nat, r < n ∧ c < 8 ∧ px.val = (x0.toNat + c) % 64 ∧ py.val = (y0.toNat + r) % 32 ∧
    (s.readByte (s.i.toNat + r)).getLsbD (7 - c) = true

end Sys2Proof.Machine
end

