-- ==== Sys2Proof/Certificates/Slice0/Obligations.lean ====
section
/-! DEFINITION. The statements for the provers, in the order of the spec's files. Terms: Sys2Proof/Safety.lean. -/

open Sys2Proof Sys2Proof.Machine

/-! ### Encoding (30_encoding.md) -/

/-- Words written out from the encodings of the rules decode to their instructions. -/
def Obligations.DecodeOfWrittenWords : Prop :=
  decodeWord 0x00E0 = .ok .cls ∧ decodeWord 0x00EE = .ok .ret ∧ decodeWord 0x2345 = .ok (.call 0x345) ∧
  decodeWord 0x3A07 = .ok (.seImm 10 0x07) ∧ decodeWord 0x8127 = .ok (.subn 1 2) ∧ decodeWord 0x8F5E = .ok (.shl 15 5) ∧
  decodeWord 0xD125 = .ok (.drw 1 2 5) ∧ decodeWord 0xE49E = .ok (.skp 4) ∧ decodeWord 0xFB65 = .ok (.loadRegs 11) ∧
  decodeWord 0x5121 = .error (.invalidWord 0x5121)

/-- Every instruction has the word that the "Encoding" line of its rule gives, written as a number (R81, 41 to 45). -/
def Obligations.EncodingsAreThoseOfTheRules : Prop :=
  ∀ (x y : Reg) (nn : Byte) (nnn : BitVec 12) (n : Nat), n ≤ 15 →
    (encode .cls).toNat = 0x00E0 ∧ (encode .ret).toNat = 0x00EE ∧
    (encode (.jp nnn)).toNat = 0x1000 + nnn.toNat ∧ (encode (.call nnn)).toNat = 0x2000 + nnn.toNat ∧
    (encode (.ldI nnn)).toNat = 0xA000 + nnn.toNat ∧ (encode (.jpV0 nnn)).toNat = 0xB000 + nnn.toNat ∧
    (encode (.seImm x nn)).toNat = 0x3000 + x.val * 0x100 + nn.toNat ∧
    (encode (.sneImm x nn)).toNat = 0x4000 + x.val * 0x100 + nn.toNat ∧
    (encode (.ldImm x nn)).toNat = 0x6000 + x.val * 0x100 + nn.toNat ∧
    (encode (.addImm x nn)).toNat = 0x7000 + x.val * 0x100 + nn.toNat ∧
    (encode (.rnd x nn)).toNat = 0xC000 + x.val * 0x100 + nn.toNat ∧
    (encode (.seReg x y)).toNat = 0x5000 + x.val * 0x100 + y.val * 0x10 ∧
    (encode (.ldReg x y)).toNat = 0x8000 + x.val * 0x100 + y.val * 0x10 ∧
    (encode (.orReg x y)).toNat = 0x8001 + x.val * 0x100 + y.val * 0x10 ∧
    (encode (.andReg x y)).toNat = 0x8002 + x.val * 0x100 + y.val * 0x10 ∧
    (encode (.xorReg x y)).toNat = 0x8003 + x.val * 0x100 + y.val * 0x10 ∧
    (encode (.addReg x y)).toNat = 0x8004 + x.val * 0x100 + y.val * 0x10 ∧
    (encode (.subReg x y)).toNat = 0x8005 + x.val * 0x100 + y.val * 0x10 ∧
    (encode (.shr x y)).toNat = 0x8006 + x.val * 0x100 + y.val * 0x10 ∧
    (encode (.subn x y)).toNat = 0x8007 + x.val * 0x100 + y.val * 0x10 ∧
    (encode (.shl x y)).toNat = 0x800E + x.val * 0x100 + y.val * 0x10 ∧
    (encode (.sneReg x y)).toNat = 0x9000 + x.val * 0x100 + y.val * 0x10 ∧
    (encode (.drw x y n)).toNat = 0xD000 + x.val * 0x100 + y.val * 0x10 + n ∧
    (encode (.skp x)).toNat = 0xE09E + x.val * 0x100 ∧ (encode (.sknp x)).toNat = 0xE0A1 + x.val * 0x100 ∧
    (encode (.ldVxDT x)).toNat = 0xF007 + x.val * 0x100 ∧ (encode (.ldVxK x)).toNat = 0xF00A + x.val * 0x100 ∧
    (encode (.ldDTVx x)).toNat = 0xF015 + x.val * 0x100 ∧ (encode (.ldSTVx x)).toNat = 0xF018 + x.val * 0x100 ∧
    (encode (.addI x)).toNat = 0xF01E + x.val * 0x100 ∧ (encode (.ldF x)).toNat = 0xF029 + x.val * 0x100 ∧
    (encode (.ldB x)).toNat = 0xF033 + x.val * 0x100 ∧ (encode (.storeRegs x)).toNat = 0xF055 + x.val * 0x100 ∧
    (encode (.loadRegs x)).toNat = 0xF065 + x.val * 0x100

/-- Every well-formed instruction, with every operand at every value, is what its word decodes to. -/
def Obligations.DecodeInvertsEncode : Prop :=
  ∀ i : Instr, i.wellFormed = true → decodeWord (encode i) = .ok i

/-- Every word that decodes is the word of the instruction that it decodes to, so that no bit of a word is dropped, the ignored
Y of the shifts included (R88, R89); and what is decoded is well formed. -/
def Obligations.EncodeInvertsDecode : Prop :=
  ∀ (w : Word) (i : Instr), decodeWord w = .ok i → encode i = w ∧ i.wellFormed = true

/-- The decoder is the scan of the match-and-mask table of R85 that R86 writes out. -/
def Obligations.DecodeIsTheTableScan : Prop :=
  ∀ w : Word, decodeWord w = decodeByTable w

/-- The invalid words are exactly those of the list of R87, by the word's value as a number. -/
def Obligations.InvalidWordsAreExactlyTheListed : Prop :=
  ∀ w : Word, decodeWord w = .error (.invalidWord w) ↔
    (w.toNat < 0x1000 ∧ w.toNat ≠ 0x00E0 ∧ w.toNat ≠ 0x00EE) ∨
    (w.toNat / 0x1000 = 0x5 ∧ w.toNat % 0x10 ≠ 0) ∨
    (w.toNat / 0x1000 = 0x8 ∧ w.toNat % 0x10 ∈ [0x8, 0x9, 0xA, 0xB, 0xC, 0xD, 0xF]) ∨
    (w.toNat / 0x1000 = 0x9 ∧ w.toNat % 0x10 ≠ 0) ∨
    (w.toNat / 0x1000 = 0xE ∧ w.toNat % 0x100 ∉ [0x9E, 0xA1]) ∨
    (w.toNat / 0x1000 = 0xF ∧ w.toNat % 0x100 ∉ [0x07, 0x0A, 0x15, 0x18, 0x1E, 0x29, 0x33, 0x55, 0x65])

/-! ### The step (40_step_cycle.md) -/

/-- When the next command is a Step that fetches and the two bytes at PC, high byte first, decode to `i`, the step is `i`
executed with the step's inputs; around it the machine only takes the command from the driver. -/
def Obligations.StepRunsTheDecodedInstruction : Prop :=
  ∀ (s : State) (input : StepInput) (i : Instr), s.Fetching input →
    decodeWord (joinBytes (s.readByte s.pc.toNat) (s.readByte (s.pc.toNat + 1))) = .ok i →
    step s = exec i { s.afterTaking with input := input }

/-- A Step on an invalid word advances PC by 2, reports the word and its address, and changes nothing else. What "skip" commits
is the spec's decision D9 (log 7). -/
def Obligations.InvalidWordIsSkippedAndReported : Prop :=
  ∀ (s : State) (input : StepInput) (w : Word) (why : Reject), s.Fetching input →
    w = joinBytes (s.readByte s.pc.toNat) (s.readByte (s.pc.toNat + 1)) → decodeWord w = .error why →
    step s = .next { s.afterTaking with input := input, pc := s.pc + 2, report := .decodeError w s.pc }

/-- A Step whose word does not lie in memory halts with OutOfMemory at the first missing byte; PC stays. That nothing is
committed is the spec's decision D7 (log 6). -/
def Obligations.FetchOutsideMemoryHalts : Prop :=
  ∀ (s : State) (input : StepInput), s.nextCommand = .step input → s.status = .running → s.kw = none →
    s.pc.toNat + 1 ≥ 4096 →
    step s = .next (State.halt { s.afterTaking with input := input }
      (.outOfMemory (if s.pc.toNat ≥ 4096 then s.pc.toNat else s.pc.toNat + 1)))

/-- A Step of a halted core changes nothing and reports the halt. That STATUS holds the halt is the spec's decision D8 (log 6). -/
def Obligations.HaltedStepChangesNothing : Prop :=
  ∀ (s : State) (input : StepInput) (e : HaltError), s.nextCommand = .step input → s.status = .halted e →
    step s = .next { s.afterTaking with input := input, report := .halted e }

/-- A Step during a key wait: the lowest pressed key goes to the pending register and ends the wait; with no key pressed nothing
changes. PC stays and no instruction runs, which is the spec's decision D11 (log 18). -/
def Obligations.KeyWaitStoresTheLowestPressedKey : Prop :=
  ∀ (s : State) (input : StepInput) (r : Reg), s.nextCommand = .step input → s.status = .running → s.kw = some r →
    (∀ k : Reg, input.keys.getLsbD k.val = true → (∀ j : Reg, j < k → input.keys.getLsbD j.val = false) →
      ∃ t, step s = .next t ∧ (t.getV r).toNat = k.val ∧ t.kw = none ∧ t.report = .keyResolved k ∧ t.pc = s.pc ∧
        Keeps { regs := [r], keyWait := true } { s.afterTaking with input := input } t) ∧
    ((∀ k : Reg, input.keys.getLsbD k.val = false) →
      step s = .next { s.afterTaking with input := input, report := .keyWaiting })

/-- Each instruction raises exactly the error that the table of R232 gives it, committing nothing but STATUS and the reported outcome
(the spec's decision D7, log 6); where the table gives none it completes and STATUS stays. SP is taken in its buffer (R26). -/
def Obligations.ErrorsAreExactlyThoseOfTheTable : Prop :=
  ∀ (i : Instr) (s : State), s.sp.toNat ≤ 32 →
    (∀ e, raisedBy s i = some e → exec i s = .next (s.halt e)) ∧
    (raisedBy s i = none → ∃ t, exec i s = .next t ∧ t.report = .executed ∧ t.status = s.status)

/-! ### The legal states (10_state.md R26, R37, 20_memory.md R58) -/

/-- The state after reset is legal, whatever the parameters. Of the clauses of `State.Inv`, that memory is canonical is THE MODEL'S
CHOICE of form (log 22), which no rule of the spec states; the bounds on SP and the frames, on PC and on a halt's payload rest on the
spec's decisions D2, D19 and D25 (logs 9, 15 and 23), and PC 0 at reset on D14 (log 10). -/
def Obligations.ResetStateIsLegal : Prop :=
  ∀ c : Config, (State.resetWith c).Inv

/-- Every command, from every legal state, leaves a legal state: memory stays canonical, SP even and within its buffer, every
stacked return address at most 0x1000, PC at most 0x10FE, the halt's payload one that its cause can leave. That memory has a canonical
form is THE MODEL'S CHOICE (log 22); the bounds on SP and the frames, on PC and on the payload rest on the spec's decisions D2, D19 and
D25 (logs 9, 15 and 23). -/
def Obligations.EveryStepKeepsTheStateLegal : Prop :=
  ∀ s t : State, s.Inv → step s = .next t → t.Inv

/-- From a legal state the machine always answers a next state: no command and no word stops it. The premise `State.Inv` has the model's
own form of memory (log 22) and the bounds of the spec's decisions D2, D19 and D25 (logs 9, 15 and 23); that an error is a next state is
D7 and D8 (log 6). -/
def Obligations.EveryStepAnswersANextState : Prop :=
  ∀ s : State, s.Inv → ∃ t, step s = .next t

/-- Every run, of any length under any list of commands, of a machine with any parameters, goes on and stays legal. Of what "legal" says,
the canonical form of memory is THE MODEL'S CHOICE (log 22), and the bounds rest on the spec's decisions D2, D19 and D25 (logs 9, 15 and
23). -/
def Obligations.EveryRunGoesOnAndStaysLegal : Prop :=
  ∀ (c : Config) (schedule : List Command) (k : Nat), ∃ t,
    Host.Core.run Sys2Proof.core k { State.resetWith c with schedule := schedule } = .next t ∧ t.Inv

/-- The parameters of the hardware never change. -/
def Obligations.ParametersNeverChange : Prop :=
  ∀ s t : State, step s = .next t → t.cfg = s.cfg

/-! ### Control flow (41_control_flow.md) -/

/-- 00EE with a frame on the stack: PC becomes the frame's word, high byte first, SP falls by 2, the bytes stay (the spec's
decision D16). -/
def Obligations.ReturnPopsTheTopFrame : Prop :=
  ∀ (s : State) (h2 : 2 ≤ s.sp.toNat) (h32 : s.sp.toNat ≤ 32),
    Executes .ret s { stack := true } fun t =>
      t.pc = joinBytes (s.stk[s.sp.toNat - 2]'(show s.sp.toNat - 2 < 32 by omega))
        (s.stk[s.sp.toNat - 1]'(show s.sp.toNat - 1 < 32 by omega)) ∧
      t.sp.toNat = s.sp.toNat - 2 ∧ t.stk = s.stk

/-- 2NNN with room on the stack: the address after the call goes to STK[SP] (high) and STK[SP + 1] (low), no other byte of the
stack changes, SP rises by 2, PC becomes NNN. The depth of 16 frames is the spec's decision D2 (log 9). -/
def Obligations.CallPushesTheReturnAddress : Prop :=
  ∀ (s : State) (nnn : BitVec 12), s.sp.toNat + 2 ≤ 32 →
    Executes (.call nnn) s { stack := true } fun t =>
      t.pc.toNat = nnn.toNat ∧ t.sp.toNat = s.sp.toNat + 2 ∧
      ∀ (j : Nat) (h : j < 32), t.stk[j]'h =
        if j = s.sp.toNat then highByte (s.pc + 2) else if j = s.sp.toNat + 1 then lowByte (s.pc + 2) else s.stk[j]'h

/-- A return, from any state whose stack is as the call left it, goes to the instruction after the call and puts SP back. -/
def Obligations.ReturnGoesBackBehindTheCall : Prop :=
  ∀ (s u : State) (nnn : BitVec 12), s.sp.toNat + 2 ≤ 32 →
    ∃ t, exec (.call nnn) s = .next t ∧
      (u.sp = t.sp → u.stk = t.stk → ∃ w, exec .ret u = .next w ∧ w.pc = s.pc + 2 ∧ w.sp = s.sp)

/-- 2NNN on a full stack and 00EE on an empty one halt with the stack error and SP as payload, and change nothing else (the
spec's decisions D2 and D7, logs 6 and 9). -/
def Obligations.StackErrorsHalt : Prop :=
  ∀ s : State,
    (∀ nnn : BitVec 12, s.sp.toNat + 2 > 32 → exec (.call nnn) s = .next (s.halt (.stackOverflow s.sp))) ∧
    (s.sp.toNat < 2 → exec .ret s = .next (s.halt (.stackUnderflow s.sp)))

/-- 00EE in a state that R26 rules out, SP beyond the buffer, stops the model by name: the spec gives no meaning there. THE
MODEL'S CHOICE, log 11. -/
def Obligations.ReturnWithIllegalStackPointerStops : Prop :=
  ∀ s : State, s.sp.toNat > 32 → exec .ret s = .fault .stackPointerOutsideBuffer

/-- 1NNN: PC <- NNN, nothing else changes. -/
def Obligations.JumpSetsPc : Prop :=
  ∀ (s : State) (nnn : BitVec 12),
    Executes (.jp nnn) s {} (fun t => t.pc.toNat = nnn.toNat) ∧ IsTheWordOf (0x1000 + nnn.toNat) (.jp nnn)

/-- BNNN: PC <- NNN + V[0], the exact sum, not masked to 12 bits (the spec's decision D19, log 15). -/
def Obligations.IndexedJumpAddsV0 : Prop :=
  ∀ (s : State) (nnn : BitVec 12),
    Executes (.jpV0 nnn) s {} fun t => t.pc.toNat = nnn.toNat + (s.getV 0).toNat

/-- 3XNN and 4XNN skip the next word on equality and on inequality. -/
def Obligations.SkipsCompareWithImmediate : Prop :=
  ∀ (s : State) (x : Reg) (nn : Byte),
    Executes (.seImm x nn) s {} (fun t => t.pc = if s.getV x = nn then s.pc + 4 else s.pc + 2) ∧
    Executes (.sneImm x nn) s {} (fun t => t.pc = if s.getV x ≠ nn then s.pc + 4 else s.pc + 2) ∧
    IsTheWordOf (0x3000 + x.val * 0x100 + nn.toNat) (.seImm x nn) ∧
    IsTheWordOf (0x4000 + x.val * 0x100 + nn.toNat) (.sneImm x nn)

/-- 5XY0 and 9XY0 skip the next word on equality and on inequality of two registers; with n in place of 0 they are invalid. -/
def Obligations.SkipsCompareRegisters : Prop :=
  ∀ (s : State) (x y : Reg),
    Executes (.seReg x y) s {} (fun t => t.pc = if s.getV x = s.getV y then s.pc + 4 else s.pc + 2) ∧
    Executes (.sneReg x y) s {} (fun t => t.pc = if s.getV x ≠ s.getV y then s.pc + 4 else s.pc + 2) ∧
    IsTheWordOf (0x5000 + x.val * 0x100 + y.val * 0x10) (.seReg x y) ∧
    IsTheWordOf (0x9000 + x.val * 0x100 + y.val * 0x10) (.sneReg x y) ∧
    ∀ n : BitVec 4, n ≠ 0 → decodeWord (wordRegReg 0x5 x y n) = .error (.invalidWord (wordRegReg 0x5 x y n)) ∧
      decodeWord (wordRegReg 0x9 x y n) = .error (.invalidWord (wordRegReg 0x9 x y n))

/-- From a state stopped at `a` (a jump to itself) a Step reports Executed and changes nothing. -/
def Obligations.StoppedStateStaysStopped : Prop :=
  ∀ (s : State) (a : BitVec 12) (input : StepInput), s.StoppedAt a → s.nextCommand = .step input →
    step s = .next { s.afterTaking with input := input, report := .executed } ∧
    ∀ t, step s = .next t → t.StoppedAt a

/-! ### Registers and arithmetic (42_register_alu.md) -/

/-- 6XNN and 8XY0: V[X] <- NN, V[X] <- V[Y]. -/
def Obligations.RegisterLoadsWriteVx : Prop :=
  ∀ (s : State) (x y : Reg) (nn : Byte),
    Executes (.ldImm x nn) s { regs := [x] } (fun t => t.getV x = nn ∧ t.pc = s.pc + 2) ∧
    Executes (.ldReg x y) s { regs := [x] } (fun t => t.getV x = s.getV y ∧ t.pc = s.pc + 2) ∧
    IsTheWordOf (0x6000 + x.val * 0x100 + nn.toNat) (.ldImm x nn) ∧
    IsTheWordOf (0x8000 + x.val * 0x100 + y.val * 0x10) (.ldReg x y)

/-- 7XNN: V[X] <- V[X] + NN modulo 2^8; VF is not written as a carry (the spec's decision D20, log 13). -/
def Obligations.AddImmediateWrapsWithoutFlag : Prop :=
  ∀ (s : State) (x : Reg) (nn : Byte),
    Executes (.addImm x nn) s { regs := [x] } fun t =>
      (t.getV x).toNat = ((s.getV x).toNat + nn.toNat) % 256 ∧ t.pc = s.pc + 2

/-- 8XY1, 8XY2, 8XY3: each bit of V[X] becomes the or, the and, the exclusive or of the bits of V[X] and V[Y]; VF is not reset (the
spec's decision D20, log 13). -/
def Obligations.LogicWorksBitByBit : Prop :=
  ∀ (s : State) (x y : Reg),
    Executes (.orReg x y) s { regs := [x] } (fun t => t.pc = s.pc + 2 ∧
      ∀ k, (t.getV x).getLsbD k = ((s.getV x).getLsbD k || (s.getV y).getLsbD k)) ∧
    Executes (.andReg x y) s { regs := [x] } (fun t => t.pc = s.pc + 2 ∧
      ∀ k, (t.getV x).getLsbD k = ((s.getV x).getLsbD k && (s.getV y).getLsbD k)) ∧
    Executes (.xorReg x y) s { regs := [x] } (fun t => t.pc = s.pc + 2 ∧
      ∀ k, (t.getV x).getLsbD k = ((s.getV x).getLsbD k ^^ (s.getV y).getLsbD k))

/-- 8XY4: V[X] <- the sum modulo 2^8 and VF <- 1 exactly when the sum exceeds 255; with X = F, VF is the flag (the spec's decision
D5, log 12). -/
def Obligations.AddSetsSumAndCarry : Prop :=
  ∀ (s : State) (x y : Reg),
    Executes (.addReg x y) s { regs := [x, VF] } fun t =>
      (x ≠ VF → (t.getV x).toNat = ((s.getV x).toNat + (s.getV y).toNat) % 256) ∧
      (t.getV VF).toNat = (if (s.getV x).toNat + (s.getV y).toNat > 255 then 1 else 0) ∧ t.pc = s.pc + 2

/-- 8XY5: V[X] <- V[X] - V[Y] modulo 2^8 and VF <- 1 exactly when V[X] > V[Y]; with X = F, VF is the flag (the spec's decision D5,
log 12). -/
def Obligations.SubtractSetsDifferenceAndStrictFlag : Prop :=
  ∀ (s : State) (x y : Reg),
    Executes (.subReg x y) s { regs := [x, VF] } fun t =>
      (x ≠ VF → (t.getV x).toNat = (256 + (s.getV x).toNat - (s.getV y).toNat) % 256) ∧
      (t.getV VF).toNat = (if (s.getV x).toNat > (s.getV y).toNat then 1 else 0) ∧ t.pc = s.pc + 2

/-- 8XY6: V[X] is halved and VF is its old bit 0, whatever Y is; with X = F, VF ends as 0 (the spec's decision D5, log 12). -/
def Obligations.ShiftRightHalvesAndKeepsLowBit : Prop :=
  ∀ (s : State) (x y : Reg),
    Executes (.shr x y) s { regs := [x, VF] } fun t =>
      (x ≠ VF → (t.getV x).toNat = (s.getV x).toNat / 2 ∧ (t.getV VF).toNat = (s.getV x).toNat % 2) ∧
      (x = VF → (t.getV VF).toNat = 0) ∧ t.pc = s.pc + 2

/-- 8XY7: V[Y], not V[X], <- V[Y] - V[X] modulo 2^8, and VF <- 1 exactly when V[Y] > V[X]; with Y = F, VF is the flag (the spec's
decision D5, log 12). -/
def Obligations.ReverseSubtractWritesVy : Prop :=
  ∀ (s : State) (x y : Reg),
    Executes (.subn x y) s { regs := [y, VF] } fun t =>
      (y ≠ VF → (t.getV y).toNat = (256 + (s.getV y).toNat - (s.getV x).toNat) % 256) ∧
      (t.getV VF).toNat = (if (s.getV y).toNat > (s.getV x).toNat then 1 else 0) ∧ t.pc = s.pc + 2

/-- 8XYE: V[X] is doubled modulo 2^8 and VF is its old bit 7, whatever Y is; with X = F, VF ends as twice the old bit 7 (the spec's
decision D5, log 12). -/
def Obligations.ShiftLeftDoublesAndKeepsHighBit : Prop :=
  ∀ (s : State) (x y : Reg),
    Executes (.shl x y) s { regs := [x, VF] } fun t =>
      (x ≠ VF → (t.getV x).toNat = (s.getV x).toNat * 2 % 256 ∧ (t.getV VF).toNat = (s.getV x).toNat / 128) ∧
      (x = VF → (t.getV VF).toNat = 2 * ((s.getV x).toNat / 128)) ∧ t.pc = s.pc + 2

/-- CXNN: V[X] <- the step's random byte and NN, bit by bit. That the byte is an input of the step, of any value, is the spec's
decision D13 (log 26). -/
def Obligations.RandomIsMasked : Prop :=
  ∀ (s : State) (x : Reg) (nn : Byte),
    Executes (.rnd x nn) s { regs := [x] } fun t =>
      (∀ k, (t.getV x).getLsbD k = (s.input.rnd.getLsbD k && nn.getLsbD k)) ∧ t.pc = s.pc + 2

/-! ### Index and memory (43_index_memory.md) -/

/-- ANNN: I <- NNN. -/
def Obligations.LoadIndexSetsI : Prop :=
  ∀ (s : State) (nnn : BitVec 12),
    Executes (.ldI nnn) s { index := true } (fun t => t.i.toNat = nnn.toNat ∧ t.i.toNat ≤ 0xFFF ∧ t.pc = s.pc + 2) ∧
    IsTheWordOf (0xA000 + nnn.toNat) (.ldI nnn)

/-- FX1E: I <- I + V[X] modulo 2^16, no flag (the spec's decisions D19 and D20, logs 13 and 15). -/
def Obligations.AddToIndexWrapsWithoutFlag : Prop :=
  ∀ (s : State) (x : Reg),
    Executes (.addI x) s { index := true } fun t =>
      t.i.toNat = (s.i.toNat + (s.getV x).toNat) % 65536 ∧ t.pc = s.pc + 2

/-- FX29: I <- V[X] * 5, the whole byte, which for a digit is the address of its glyph (R52). -/
def Obligations.GlyphAddressIsFiveTimesVx : Prop :=
  ∀ (s : State) (x : Reg),
    Executes (.ldF x) s { index := true } fun t => t.i.toNat = (s.getV x).toNat * 5 ∧ t.pc = s.pc + 2

/-- FX33 with I, I + 1, I + 2 in memory: the three decimal digits of V[X], and no other byte changes. -/
def Obligations.BcdStoresThreeDigits : Prop :=
  ∀ (s : State) (x : Reg), s.i.toNat + 2 < 4096 →
    Executes (.ldB x) s { storeBase := s.i.toNat, storeLen := 3 } fun t =>
      (t.readByte s.i.toNat).toNat = (s.getV x).toNat / 100 ∧
      (t.readByte (s.i.toNat + 1)).toNat = (s.getV x).toNat / 10 % 10 ∧
      (t.readByte (s.i.toNat + 2)).toNat = (s.getV x).toNat % 10 ∧ t.pc = s.pc + 2

/-- FX55 with I to I + X in memory: V[0] to V[X] stand at I to I + X, no other byte changes, I rises by X + 1. -/
def Obligations.StoreRegistersFillsMemory : Prop :=
  ∀ (s : State) (x : Reg), s.i.toNat + x.val < 4096 →
    Executes (.storeRegs x) s { index := true, storeBase := s.i.toNat, storeLen := x.val + 1 } fun t =>
      (∀ j : Reg, j ≤ x → t.readByte (s.i.toNat + j.val) = s.getV j) ∧
      t.i.toNat = s.i.toNat + x.val + 1 ∧ t.pc = s.pc + 2

/-- FX65 with I to I + X in memory: V[0] to V[X] hold the bytes at I to I + X, no other register changes, I rises by X + 1. -/
def Obligations.LoadRegistersReadsMemory : Prop :=
  ∀ (s : State) (x : Reg), s.i.toNat + x.val < 4096 →
    Executes (.loadRegs x) s { regs := (List.finRange 16).filter (fun j => j ≤ x), index := true } fun t =>
      (∀ j : Reg, j ≤ x → t.getV j = s.readByte (s.i.toNat + j.val)) ∧
      t.i.toNat = s.i.toNat + x.val + 1 ∧ t.pc = s.pc + 2

/-- Loading back, from any state with that memory and I where the store had it, gives the registers that were stored. -/
def Obligations.LoadAfterStoreGivesTheRegistersBack : Prop :=
  ∀ (s u : State) (x : Reg), s.i.toNat + x.val < 4096 →
    ∃ t, exec (.storeRegs x) s = .next t ∧
      (u.mem = t.mem → u.cfg = t.cfg → u.i = s.i →
        ∃ w, exec (.loadRegs x) u = .next w ∧ ∀ j : Reg, j ≤ x → w.getV j = s.getV j)

/-- DXYN, FX33, FX55 and FX65 whose range leaves memory halt with the lowest address outside it, and change nothing else (the
spec's decisions D6 and D7, logs 6 and 14). -/
def Obligations.AccessOutsideMemoryHalts : Prop :=
  ∀ (s : State) (x y : Reg),
    (∀ n : Nat, 0 < n → s.i.toNat + n - 1 ≥ 4096 →
      exec (.drw x y n) s = .next (s.halt (.outOfMemory (max s.i.toNat 4096)))) ∧
    (s.i.toNat + 2 ≥ 4096 → exec (.ldB x) s = .next (s.halt (.outOfMemory (max s.i.toNat 4096)))) ∧
    (s.i.toNat + x.val ≥ 4096 → exec (.storeRegs x) s = .next (s.halt (.outOfMemory (max s.i.toNat 4096))) ∧
      exec (.loadRegs x) s = .next (s.halt (.outOfMemory (max s.i.toNat 4096))))

/-- Two canonical memories that read alike at every address are the same list. THE MODEL'S CHOICE of form, log 22. -/
def Obligations.CanonicalMemoriesThatReadAlikeAreEqual : Prop :=
  ∀ (c : Config) (m m' : Memory), Memory.wf c m → Memory.wf c m' →
    (∀ a, a < 4096 → Memory.read c m a = Memory.read c m' a) → m = m'

/-! ### Display (44_display.md) -/

/-- 00E0: every pixel false, DIRTY true, VF and everything else unchanged. -/
def Obligations.ClearScreenClearsAndMarksDirty : Prop :=
  ∀ s : State,
    Executes .cls s { screen := true } (fun t => (∀ px py, t.fb.pixel px py = false) ∧ t.dirty = true ∧ t.pc = s.pc + 2) ∧
    IsTheWordOf 0x00E0 .cls

/-- DXYN in range: exactly the pixels that the sprite covers are inverted, VF is 1 exactly when one of them was lit before, DIRTY is
set, and nothing else changes. Which bit of a byte is leftmost is the spec's decision D4 (log 16). -/
def Obligations.DrawInvertsExactlyTheSprite : Prop :=
  ∀ (s : State) (x y : Reg) (n : Nat), n ≤ 15 → (n = 0 ∨ s.i.toNat + n ≤ 4096) →
    Executes (.drw x y n) s { regs := [VF], screen := true } fun t =>
      (∀ px py, (s.SpriteCovers (s.getV x) (s.getV y) n px py → t.fb.pixel px py = !s.fb.pixel px py) ∧
        (¬ s.SpriteCovers (s.getV x) (s.getV y) n px py → t.fb.pixel px py = s.fb.pixel px py)) ∧
      ((∃ px py, s.SpriteCovers (s.getV x) (s.getV y) n px py ∧ s.fb.pixel px py = true) → t.getV VF = 1) ∧
      ((∀ px py, s.SpriteCovers (s.getV x) (s.getV y) n px py → s.fb.pixel px py = false) → t.getV VF = 0) ∧
      t.dirty = true ∧ t.pc = s.pc + 2

/-- Drawing the same sprite at the same place again, from any state that shows the first draw's screen, restores the screen. It
reports a collision exactly when a pixel of the sprite was dark before the first draw; so, onto a dark place, exactly when the sprite
has a bit set. (R193's sentence on the second draw holds only onto a dark place: log 28.) -/
def Obligations.DrawingTwiceErasesTheSprite : Prop :=
  ∀ (s u : State) (x y : Reg) (n : Nat), n ≤ 15 → (n = 0 ∨ s.i.toNat + n ≤ 4096) →
    ∃ t, exec (.drw x y n) s = .next t ∧
      (u.fb = t.fb → u.i = s.i → u.getV x = s.getV x → u.getV y = s.getV y → (∀ a, u.readByte a = s.readByte a) →
        ∃ w, exec (.drw x y n) u = .next w ∧ w.fb = s.fb ∧
          (w.getV VF).toNat ≤ 1 ∧
          (w.getV VF = 1 ↔ ∃ px py, s.SpriteCovers (s.getV x) (s.getV y) n px py ∧ s.fb.pixel px py = false) ∧
          ((∀ px py, s.SpriteCovers (s.getV x) (s.getV y) n px py → s.fb.pixel px py = false) →
            (w.getV VF = 1 ↔ ∃ r, r < n ∧ s.readByte (s.i.toNat + r) ≠ 0)))

/-! ### Timers and keys (45_timers_keys.md) -/

/-- FX07, FX15, FX18: V[X] <- DT, DT <- V[X], ST <- V[X]; each has one word for its X. The sound timer has no read instruction: an
instruction that answers a next state answers the same one, but for ST itself, whatever ST holds, and FX18 overwrites ST. -/
def Obligations.TimerTransfers : Prop :=
  ∀ (s : State) (x : Reg),
    Executes (.ldVxDT x) s { regs := [x] } (fun t => t.getV x = s.dt ∧ t.pc = s.pc + 2) ∧
    Executes (.ldDTVx x) s { delay := true } (fun t => t.dt = s.getV x ∧ t.pc = s.pc + 2) ∧
    Executes (.ldSTVx x) s { sound := true } (fun t => t.st = s.getV x ∧ t.pc = s.pc + 2) ∧
    IsTheWordOf (0xF007 + x.val * 0x100) (.ldVxDT x) ∧ IsTheWordOf (0xF015 + x.val * 0x100) (.ldDTVx x) ∧
    IsTheWordOf (0xF018 + x.val * 0x100) (.ldSTVx x) ∧
    (∀ (i : Instr) (t : State) (b : Byte), exec i s = .next t → (∀ z, i ≠ .ldSTVx z) →
      exec i { s with st := b } = .next { t with st := b }) ∧
    (∀ b : Byte, exec (.ldSTVx x) { s with st := b } = exec (.ldSTVx x) s)

/-- FX0A: the latch becomes pending on X; no key is looked at, no register is written, PC is already past the instruction. -/
def Obligations.KeyWaitBegins : Prop :=
  ∀ (s : State) (x : Reg),
    Executes (.ldVxK x) s { keyWait := true } fun t => t.kw = some x ∧ t.pc = s.pc + 2

/-- EX9E and EXA1 with a key index in V[X]: skip when that key is pressed, when it is not, in the step's sample. -/
def Obligations.KeySkipsTestTheSampledKey : Prop :=
  ∀ (s : State) (x : Reg), (s.getV x).toNat ≤ 15 →
    Executes (.skp x) s {} (fun t => t.pc = if s.input.keys.getLsbD (s.getV x).toNat = true then s.pc + 4 else s.pc + 2) ∧
    Executes (.sknp x) s {} (fun t => t.pc = if s.input.keys.getLsbD (s.getV x).toNat = true then s.pc + 2 else s.pc + 4)

/-- EX9E and EXA1 with more than 15 in V[X] halt with KeyIndexOutOfRange, and change nothing else. That this error halts is the
spec's decision D10 (log 8). -/
def Obligations.KeyIndexAboveFifteenHalts : Prop :=
  ∀ (s : State) (x : Reg), (s.getV x).toNat > 15 →
    exec (.skp x) s = .next (s.halt (.keyIndexOutOfRange (s.getV x))) ∧
    exec (.sknp x) s = .next (s.halt (.keyIndexOutOfRange (s.getV x)))

/-! ### Commands (60_exceptions.md, 70_reset_and_hazards.md) -/

/-- Tick: both timers fall by 1, floored at 0, whatever STATUS and KW are (the spec's decision D23, log 20); nothing else changes. -/
def Obligations.TickCountsBothTimersDown : Prop :=
  ∀ s : State, s.nextCommand = .tick →
    ∃ t, step s = .next t ∧ t.dt.toNat = s.dt.toNat - 1 ∧ t.st.toNat = s.st.toNat - 1 ∧
      t = { s.afterTaking with dt := t.dt, st := t.st }

/-- ClearDirty: DIRTY <- false, nothing else changes; and the core does not clear DIRTY itself: where a command turns it from true to
false, the command is ClearDirty, or Reset. -/
def Obligations.DirtyIsClearedByTheConsumer : Prop :=
  ∀ s : State, (s.nextCommand = .clearDirty → step s = .next { s.afterTaking with dirty := false }) ∧
    ∀ t, step s = .next t → s.dirty = true → t.dirty = false → s.nextCommand = .clearDirty ∨ s.nextCommand = .reset

/-- Reset, from every state: FONT at 0x000 to 0x04F, the rest of memory, every register, the timers and the stack zero, the screen
clear, no key wait, running. The values of I, PC, the stack bytes, DIRTY and STATUS are the spec's decisions D8, D14, D15, D16
(logs 2, 6 and 10). -/
def Obligations.ResetPutsEverythingAtItsValue : Prop :=
  ∀ s : State, s.nextCommand = .reset → ∃ t, step s = .next t ∧
    (∀ (a : Nat) (h : a < 80), t.readByte a = s.cfg.font[a]'h) ∧ (∀ a, 80 ≤ a → t.readByte a = 0) ∧
    (∀ r, t.getV r = 0) ∧ t.i = 0 ∧ t.pc = 0 ∧ t.sp = 0 ∧ (∀ (j : Nat) (h : j < 32), t.stk[j]'h = 0) ∧
    t.dt = 0 ∧ t.st = 0 ∧ (∀ px py, t.fb.pixel px py = false) ∧ t.dirty = s.cfg.dirtyAtReset ∧ t.kw = none ∧
    t.status = .running ∧ t.cfg = s.cfg

/-- Load: an image of at most 3584 bytes goes to 0x200 and PC to 0x200, no other byte and nothing else changes; a longer one is
reported as OutOfMemory(0x1000) and changes nothing. What Load leaves alone is the spec's decision D21 (log 19). -/
def Obligations.LoadCopiesTheImageOrChangesNothing : Prop :=
  ∀ (s : State) (image : List Byte), s.nextCommand = .load image →
    (image.length ≤ 3584 → ∃ t, step s = .next t ∧
      (∀ (j : Nat) (h : j < image.length), t.readByte (0x200 + j) = image[j]'h) ∧ t.pc = 0x200 ∧ t.report = .loaded ∧
      Keeps { storeBase := 0x200, storeLen := image.length } s.afterTaking t) ∧
    (image.length > 3584 → step s = .next { s.afterTaking with report := .loadOutOfMemory 0x1000 })

/-- A halt ends only by Reset: under any other command STATUS stays (the spec's decision D8, log 6). -/
def Obligations.OnlyResetEndsAHalt : Prop :=
  ∀ (s t : State) (e : HaltError), s.status = .halted e → s.nextCommand ≠ .reset → step s = .next t → t.status = .halted e

/-! ### The whole machine: who reads and who writes what -/

/-- Only EX9E and EXA1 read the keys and only CXNN reads the random byte: every other instruction, where it answers a next state, answers
the same one whatever that input of the step is. -/
def Obligations.OtherInstructionsDoNotReadTheInputs : Prop :=
  ∀ (i : Instr) (s t : State) (input : StepInput), exec i s = .next t →
    ((∀ x nn, i ≠ .rnd x nn) → input.keys = s.input.keys → exec i { s with input := input } = .next { t with input := input }) ∧
    ((∀ x, i ≠ .skp x ∧ i ≠ .sknp x) → input.rnd = s.input.rnd →
      exec i { s with input := input } = .next { t with input := input })

/-- An instruction writes only the registers of R23: its named destinations, and VF for the six flag instructions (R22; that no other
writes VF is the spec's decision D20, log 13). -/
def Obligations.OnlyNamedRegistersAreWritten : Prop :=
  ∀ (i : Instr) (s t : State) (r : Reg), exec i s = .next t → writesRegister i r = false → t.getV r = s.getV r

/-- Each other piece of state has its own writers among the instructions: the stack 2NNN and 00EE, DT FX15, ST FX18, the screen 00E0 and
DXYN, the latch FX0A, I its five, memory FX33 and FX55 (R25 to R30, R110, R194). -/
def Obligations.EachPieceOfStateHasItsWriters : Prop :=
  ∀ (i : Instr) (s t : State), exec i s = .next t →
    ((∀ nnn, i ≠ .call nnn) → i ≠ .ret → t.sp = s.sp ∧ t.stk = s.stk) ∧
    ((∀ x, i ≠ .ldDTVx x) → t.dt = s.dt) ∧ ((∀ x, i ≠ .ldSTVx x) → t.st = s.st) ∧
    (i ≠ .cls → (∀ x y n, i ≠ .drw x y n) → t.fb = s.fb ∧ t.dirty = s.dirty) ∧
    ((∀ x, i ≠ .ldVxK x) → t.kw = s.kw) ∧
    ((∀ nnn, i ≠ .ldI nnn) → (∀ x, i ≠ .addI x ∧ i ≠ .ldF x ∧ i ≠ .storeRegs x ∧ i ≠ .loadRegs x) → t.i = s.i) ∧
    ((∀ x, i ≠ .ldB x ∧ i ≠ .storeRegs x) → ∀ a, t.readByte a = s.readByte a)
end

