-- ==== Sys2Proof/Laws/Decode.lean ====
section
/-! SUPPORT. Bits and fields of the words that are built, and the decoder family by family. -/

namespace Sys2Proof

/-! ### Which bit stands where -/

theorem getLsbD_joinBytes (hi lo : Byte) (i : Nat) :
    (joinBytes hi lo).getLsbD i = if i < 8 then lo.getLsbD i else hi.getLsbD (i - 8) :=
  BitVec.getLsbD_append

theorem getLsbD_wordAddr (f : BitVec 4) (nnn : BitVec 12) (i : Nat) :
    (wordAddr f nnn).getLsbD i = if i < 12 then nnn.getLsbD i else f.getLsbD (i - 12) :=
  BitVec.getLsbD_append

theorem getLsbD_wordRegByte (f : BitVec 4) (x : Reg) (nn : Byte) (i : Nat) :
    (wordRegByte f x nn).getLsbD i =
      if i < 8 then nn.getLsbD i
      else if i < 12 then (BitVec.ofFin (w := 4) x).getLsbD (i - 8) else f.getLsbD (i - 12) := by
  refine BitVec.getLsbD_append.trans ?_
  split
  · rfl
  · refine BitVec.getLsbD_append.trans ?_
    rw [show i - 8 - 4 = i - 12 by omega]
    split <;> split <;> first | rfl | omega

theorem getLsbD_wordRegReg (f : BitVec 4) (x y : Reg) (n : BitVec 4) (i : Nat) :
    (wordRegReg f x y n).getLsbD i =
      if i < 4 then n.getLsbD i
      else if i < 8 then (BitVec.ofFin (w := 4) y).getLsbD (i - 4)
      else if i < 12 then (BitVec.ofFin (w := 4) x).getLsbD (i - 8) else f.getLsbD (i - 12) := by
  refine BitVec.getLsbD_append.trans ?_
  split
  · rfl
  · refine BitVec.getLsbD_append.trans ?_
    by_cases h8 : i < 8
    · rw [if_pos (by omega), if_pos h8]
    · rw [if_neg (by omega), if_neg h8]
      refine BitVec.getLsbD_append.trans ?_
      rw [show i - 4 - 4 - 4 = i - 12 by omega, show i - 4 - 4 = i - 8 by omega]
      split <;> split <;> first | rfl | omega

/-- Two slices of one width are equal when their bits are. -/
theorem extract_eq {w : Word} {start len : Nat} {v : BitVec len}
    (h : ∀ i, i < len → w.getLsbD (start + i) = v.getLsbD i) : w.extractLsb' start len = v := by
  apply BitVec.eq_of_getLsbD_eq
  intro i hi
  rw [BitVec.getLsbD_extractLsb', h i hi, decide_eq_true hi, Bool.true_and]

/-! ### Bytes joined and split -/

@[simp] theorem highByte_joinBytes (hi lo : Byte) : highByte (joinBytes hi lo) = hi :=
  extract_eq fun i _ => by rw [getLsbD_joinBytes, if_neg (by omega), Nat.add_sub_cancel_left]

@[simp] theorem lowByte_joinBytes (hi lo : Byte) : lowByte (joinBytes hi lo) = lo :=
  extract_eq fun i h => by rw [getLsbD_joinBytes, Nat.zero_add, if_pos h]

@[simp] theorem joinBytes_high_low (w : Word) : joinBytes (highByte w) (lowByte w) = w := by
  apply BitVec.eq_of_getLsbD_eq
  intro i hi
  rw [getLsbD_joinBytes, highByte, lowByte, BitVec.getLsbD_extractLsb', BitVec.getLsbD_extractLsb']
  split
  · rename_i h; rw [decide_eq_true h, Bool.true_and, Nat.zero_add]
  · rw [decide_eq_true (by omega), Bool.true_and, show 8 + (i - 8) = i by omega]

/-! ### The fields of a built word -/

@[simp] theorem fieldF_wordAddr (f : BitVec 4) (nnn : BitVec 12) : fieldF (wordAddr f nnn) = f :=
  extract_eq fun i _ => by rw [getLsbD_wordAddr, if_neg (by omega), Nat.add_sub_cancel_left]

@[simp] theorem fieldNNN_wordAddr (f : BitVec 4) (nnn : BitVec 12) : fieldNNN (wordAddr f nnn) = nnn :=
  extract_eq fun i h => by rw [getLsbD_wordAddr, Nat.zero_add, if_pos h]

@[simp] theorem fieldF_wordRegByte (f : BitVec 4) (x : Reg) (nn : Byte) : fieldF (wordRegByte f x nn) = f :=
  extract_eq fun i _ => by rw [getLsbD_wordRegByte, if_neg (by omega), if_neg (by omega), Nat.add_sub_cancel_left]

@[simp] theorem fieldX_wordRegByte (f : BitVec 4) (x : Reg) (nn : Byte) : fieldX (wordRegByte f x nn) = x := by
  have h : (wordRegByte f x nn).extractLsb' 8 4 = BitVec.ofFin (w := 4) x :=
    extract_eq fun i h => by rw [getLsbD_wordRegByte, if_neg (by omega), if_pos (by omega), Nat.add_sub_cancel_left]
  rw [fieldX, h]

@[simp] theorem fieldNN_wordRegByte (f : BitVec 4) (x : Reg) (nn : Byte) : fieldNN (wordRegByte f x nn) = nn :=
  extract_eq fun i h => by rw [getLsbD_wordRegByte, Nat.zero_add, if_pos h]

@[simp] theorem fieldF_wordRegReg (f : BitVec 4) (x y : Reg) (n : BitVec 4) : fieldF (wordRegReg f x y n) = f :=
  extract_eq fun i _ => by
    rw [getLsbD_wordRegReg, if_neg (by omega), if_neg (by omega), if_neg (by omega), Nat.add_sub_cancel_left]

@[simp] theorem fieldX_wordRegReg (f : BitVec 4) (x y : Reg) (n : BitVec 4) : fieldX (wordRegReg f x y n) = x := by
  have h : (wordRegReg f x y n).extractLsb' 8 4 = BitVec.ofFin (w := 4) x :=
    extract_eq fun i h => by
      rw [getLsbD_wordRegReg, if_neg (by omega), if_neg (by omega), if_pos (by omega), Nat.add_sub_cancel_left]
  rw [fieldX, h]

@[simp] theorem fieldY_wordRegReg (f : BitVec 4) (x y : Reg) (n : BitVec 4) : fieldY (wordRegReg f x y n) = y := by
  have h : (wordRegReg f x y n).extractLsb' 4 4 = BitVec.ofFin (w := 4) y :=
    extract_eq fun i h => by rw [getLsbD_wordRegReg, if_neg (by omega), if_pos (by omega), Nat.add_sub_cancel_left]
  rw [fieldY, h]

@[simp] theorem fieldN_wordRegReg (f : BitVec 4) (x y : Reg) (n : BitVec 4) : fieldN (wordRegReg f x y n) = n :=
  extract_eq fun i h => by rw [getLsbD_wordRegReg, Nat.zero_add, if_pos h]

/-! ### A built word as a number -/

theorem toNat_wordAddr (f : BitVec 4) (nnn : BitVec 12) : (wordAddr f nnn).toNat = f.toNat * 4096 + nnn.toNat := by
  refine (BitVec.toNat_append f nnn).trans ?_
  rw [← Nat.shiftLeft_add_eq_or_of_lt nnn.isLt, Nat.shiftLeft_eq]

theorem toNat_wordRegByte (f : BitVec 4) (x : Reg) (nn : Byte) :
    (wordRegByte f x nn).toNat = f.toNat * 4096 + x.val * 256 + nn.toNat := by
  refine (BitVec.toNat_append (f ++ BitVec.ofFin (w := 4) x) nn).trans ?_
  have h := BitVec.toNat_append f (BitVec.ofFin (w := 4) x)
  rw [← Nat.shiftLeft_add_eq_or_of_lt nn.isLt, h, ← Nat.shiftLeft_add_eq_or_of_lt (BitVec.isLt _), Nat.shiftLeft_eq,
    Nat.shiftLeft_eq]
  simp
  omega

theorem toNat_wordRegReg (f : BitVec 4) (x y : Reg) (n : BitVec 4) :
    (wordRegReg f x y n).toNat = f.toNat * 4096 + x.val * 256 + y.val * 16 + n.toNat := by
  refine (BitVec.toNat_append ((f ++ BitVec.ofFin (w := 4) x) ++ BitVec.ofFin (w := 4) y) n).trans ?_
  have h := BitVec.toNat_append (f ++ BitVec.ofFin (w := 4) x) (BitVec.ofFin (w := 4) y)
  have h' := BitVec.toNat_append f (BitVec.ofFin (w := 4) x)
  rw [← Nat.shiftLeft_add_eq_or_of_lt n.isLt, h, ← Nat.shiftLeft_add_eq_or_of_lt (BitVec.isLt _), h',
    ← Nat.shiftLeft_add_eq_or_of_lt (BitVec.isLt _), Nat.shiftLeft_eq, Nat.shiftLeft_eq, Nat.shiftLeft_eq]
  simp
  omega

/-! ### A word is its fields -/

theorem word_eq_of_slices {v w : Word} (a b : Nat) (hab : a + b = 16)
    (hlo : v.extractLsb' 0 a = w.extractLsb' 0 a) (hhi : v.extractLsb' a b = w.extractLsb' a b) : v = w := by
  apply BitVec.eq_of_getLsbD_eq
  intro i hi
  by_cases h : i < a
  · have := congrArg (·.getLsbD i) hlo
    simpa [BitVec.getLsbD_extractLsb', h] using this
  · have := congrArg (·.getLsbD (i - a)) hhi
    simpa [BitVec.getLsbD_extractLsb', show i - a < b by omega, show a + (i - a) = i by omega] using this

theorem wordAddr_fields (w : Word) : wordAddr (fieldF w) (fieldNNN w) = w :=
  word_eq_of_slices 12 4 rfl (fieldNNN_wordAddr ..) (fieldF_wordAddr ..)

theorem wordRegByte_fields (w : Word) : wordRegByte (fieldF w) (fieldX w) (fieldNN w) = w := by
  apply BitVec.eq_of_getLsbD_eq
  intro i hi
  rw [getLsbD_wordRegByte, fieldF, fieldX, fieldNN]
  simp only [BitVec.getLsbD_extractLsb', BitVec.ofFin_toFin]
  split
  · rename_i h; simp [h]
  · split
    · rename_i h8 h12; simp [show i - 8 < 4 by omega, show 8 + (i - 8) = i by omega]
    · rename_i h8 h12; simp [show i - 12 < 4 by omega, show 12 + (i - 12) = i by omega]

theorem wordRegReg_fields (w : Word) : wordRegReg (fieldF w) (fieldX w) (fieldY w) (fieldN w) = w := by
  apply BitVec.eq_of_getLsbD_eq
  intro i hi
  rw [getLsbD_wordRegReg, fieldF, fieldX, fieldY, fieldN]
  simp only [BitVec.getLsbD_extractLsb', BitVec.ofFin_toFin]
  split
  · rename_i h; simp [h]
  · split
    · simp [show i - 4 < 4 by omega, show 4 + (i - 4) = i by omega]
    · split
      · simp [show i - 8 < 4 by omega, show 8 + (i - 8) = i by omega]
      · simp [show i - 12 < 4 by omega, show 12 + (i - 12) = i by omega]

end Sys2Proof
end

