-- ==== Sys2Proof/Laws/State.lean ====
section
/-! SUPPORT. One lemma per field per update of State, so that no proof unfolds a record update. -/

namespace Sys2Proof.Machine

@[simp] theorem State.setV_v (s : State) (r : Reg) (b : Byte) : (s.setV r b).v = s.v.set r.val b r.isLt := rfl
@[simp] theorem State.setV_pc (s : State) (r : Reg) (b : Byte) : (s.setV r b).pc = s.pc := rfl
@[simp] theorem State.setV_i (s : State) (r : Reg) (b : Byte) : (s.setV r b).i = s.i := rfl
@[simp] theorem State.setV_sp (s : State) (r : Reg) (b : Byte) : (s.setV r b).sp = s.sp := rfl
@[simp] theorem State.setV_stk (s : State) (r : Reg) (b : Byte) : (s.setV r b).stk = s.stk := rfl
@[simp] theorem State.setV_dt (s : State) (r : Reg) (b : Byte) : (s.setV r b).dt = s.dt := rfl
@[simp] theorem State.setV_st (s : State) (r : Reg) (b : Byte) : (s.setV r b).st = s.st := rfl
@[simp] theorem State.setV_mem (s : State) (r : Reg) (b : Byte) : (s.setV r b).mem = s.mem := rfl
@[simp] theorem State.setV_fb (s : State) (r : Reg) (b : Byte) : (s.setV r b).fb = s.fb := rfl
@[simp] theorem State.setV_dirty (s : State) (r : Reg) (b : Byte) : (s.setV r b).dirty = s.dirty := rfl
@[simp] theorem State.setV_kw (s : State) (r : Reg) (b : Byte) : (s.setV r b).kw = s.kw := rfl
@[simp] theorem State.setV_status (s : State) (r : Reg) (b : Byte) : (s.setV r b).status = s.status := rfl
@[simp] theorem State.setV_report (s : State) (r : Reg) (b : Byte) : (s.setV r b).report = s.report := rfl
@[simp] theorem State.setV_cfg (s : State) (r : Reg) (b : Byte) : (s.setV r b).cfg = s.cfg := rfl
@[simp] theorem State.setV_input (s : State) (r : Reg) (b : Byte) : (s.setV r b).input = s.input := rfl
@[simp] theorem State.setV_schedule (s : State) (r : Reg) (b : Byte) : (s.setV r b).schedule = s.schedule := rfl
@[simp] theorem State.setV_issued (s : State) (r : Reg) (b : Byte) : (s.setV r b).issued = s.issued := rfl

@[simp] theorem State.advance_v (s : State) : (s.advance).v = s.v := rfl
@[simp] theorem State.advance_pc (s : State) : (s.advance).pc = s.pc + 2 := rfl
@[simp] theorem State.advance_i (s : State) : (s.advance).i = s.i := rfl
@[simp] theorem State.advance_sp (s : State) : (s.advance).sp = s.sp := rfl
@[simp] theorem State.advance_stk (s : State) : (s.advance).stk = s.stk := rfl
@[simp] theorem State.advance_dt (s : State) : (s.advance).dt = s.dt := rfl
@[simp] theorem State.advance_st (s : State) : (s.advance).st = s.st := rfl
@[simp] theorem State.advance_mem (s : State) : (s.advance).mem = s.mem := rfl
@[simp] theorem State.advance_fb (s : State) : (s.advance).fb = s.fb := rfl
@[simp] theorem State.advance_dirty (s : State) : (s.advance).dirty = s.dirty := rfl
@[simp] theorem State.advance_kw (s : State) : (s.advance).kw = s.kw := rfl
@[simp] theorem State.advance_status (s : State) : (s.advance).status = s.status := rfl
@[simp] theorem State.advance_report (s : State) : (s.advance).report = s.report := rfl
@[simp] theorem State.advance_cfg (s : State) : (s.advance).cfg = s.cfg := rfl
@[simp] theorem State.advance_input (s : State) : (s.advance).input = s.input := rfl
@[simp] theorem State.advance_schedule (s : State) : (s.advance).schedule = s.schedule := rfl
@[simp] theorem State.advance_issued (s : State) : (s.advance).issued = s.issued := rfl

@[simp] theorem State.skipIf_v (s : State) (b : Bool) : (s.skipIf b).v = s.v := rfl
@[simp] theorem State.skipIf_pc (s : State) (b : Bool) : (s.skipIf b).pc = if b then s.pc + 2 else s.pc := rfl
@[simp] theorem State.skipIf_i (s : State) (b : Bool) : (s.skipIf b).i = s.i := rfl
@[simp] theorem State.skipIf_sp (s : State) (b : Bool) : (s.skipIf b).sp = s.sp := rfl
@[simp] theorem State.skipIf_stk (s : State) (b : Bool) : (s.skipIf b).stk = s.stk := rfl
@[simp] theorem State.skipIf_dt (s : State) (b : Bool) : (s.skipIf b).dt = s.dt := rfl
@[simp] theorem State.skipIf_st (s : State) (b : Bool) : (s.skipIf b).st = s.st := rfl
@[simp] theorem State.skipIf_mem (s : State) (b : Bool) : (s.skipIf b).mem = s.mem := rfl
@[simp] theorem State.skipIf_fb (s : State) (b : Bool) : (s.skipIf b).fb = s.fb := rfl
@[simp] theorem State.skipIf_dirty (s : State) (b : Bool) : (s.skipIf b).dirty = s.dirty := rfl
@[simp] theorem State.skipIf_kw (s : State) (b : Bool) : (s.skipIf b).kw = s.kw := rfl
@[simp] theorem State.skipIf_status (s : State) (b : Bool) : (s.skipIf b).status = s.status := rfl
@[simp] theorem State.skipIf_report (s : State) (b : Bool) : (s.skipIf b).report = s.report := rfl
@[simp] theorem State.skipIf_cfg (s : State) (b : Bool) : (s.skipIf b).cfg = s.cfg := rfl
@[simp] theorem State.skipIf_input (s : State) (b : Bool) : (s.skipIf b).input = s.input := rfl
@[simp] theorem State.skipIf_schedule (s : State) (b : Bool) : (s.skipIf b).schedule = s.schedule := rfl
@[simp] theorem State.skipIf_issued (s : State) (b : Bool) : (s.skipIf b).issued = s.issued := rfl

@[simp] theorem State.storeBytes_v (s : State) (a : Nat) (bs : List Byte) : (s.storeBytes a bs).v = s.v := rfl
@[simp] theorem State.storeBytes_pc (s : State) (a : Nat) (bs : List Byte) : (s.storeBytes a bs).pc = s.pc := rfl
@[simp] theorem State.storeBytes_i (s : State) (a : Nat) (bs : List Byte) : (s.storeBytes a bs).i = s.i := rfl
@[simp] theorem State.storeBytes_sp (s : State) (a : Nat) (bs : List Byte) : (s.storeBytes a bs).sp = s.sp := rfl
@[simp] theorem State.storeBytes_stk (s : State) (a : Nat) (bs : List Byte) : (s.storeBytes a bs).stk = s.stk := rfl
@[simp] theorem State.storeBytes_dt (s : State) (a : Nat) (bs : List Byte) : (s.storeBytes a bs).dt = s.dt := rfl
@[simp] theorem State.storeBytes_st (s : State) (a : Nat) (bs : List Byte) : (s.storeBytes a bs).st = s.st := rfl
@[simp] theorem State.storeBytes_mem (s : State) (a : Nat) (bs : List Byte) : (s.storeBytes a bs).mem = Memory.writeBytes s.cfg s.mem a bs := rfl
@[simp] theorem State.storeBytes_fb (s : State) (a : Nat) (bs : List Byte) : (s.storeBytes a bs).fb = s.fb := rfl
@[simp] theorem State.storeBytes_dirty (s : State) (a : Nat) (bs : List Byte) : (s.storeBytes a bs).dirty = s.dirty := rfl
@[simp] theorem State.storeBytes_kw (s : State) (a : Nat) (bs : List Byte) : (s.storeBytes a bs).kw = s.kw := rfl
@[simp] theorem State.storeBytes_status (s : State) (a : Nat) (bs : List Byte) : (s.storeBytes a bs).status = s.status := rfl
@[simp] theorem State.storeBytes_report (s : State) (a : Nat) (bs : List Byte) : (s.storeBytes a bs).report = s.report := rfl
@[simp] theorem State.storeBytes_cfg (s : State) (a : Nat) (bs : List Byte) : (s.storeBytes a bs).cfg = s.cfg := rfl
@[simp] theorem State.storeBytes_input (s : State) (a : Nat) (bs : List Byte) : (s.storeBytes a bs).input = s.input := rfl
@[simp] theorem State.storeBytes_schedule (s : State) (a : Nat) (bs : List Byte) : (s.storeBytes a bs).schedule = s.schedule := rfl
@[simp] theorem State.storeBytes_issued (s : State) (a : Nat) (bs : List Byte) : (s.storeBytes a bs).issued = s.issued := rfl

@[simp] theorem State.sample_v (s : State) (inp : StepInput) : (s.sample inp).v = s.v := rfl
@[simp] theorem State.sample_pc (s : State) (inp : StepInput) : (s.sample inp).pc = s.pc := rfl
@[simp] theorem State.sample_i (s : State) (inp : StepInput) : (s.sample inp).i = s.i := rfl
@[simp] theorem State.sample_sp (s : State) (inp : StepInput) : (s.sample inp).sp = s.sp := rfl
@[simp] theorem State.sample_stk (s : State) (inp : StepInput) : (s.sample inp).stk = s.stk := rfl
@[simp] theorem State.sample_dt (s : State) (inp : StepInput) : (s.sample inp).dt = s.dt := rfl
@[simp] theorem State.sample_st (s : State) (inp : StepInput) : (s.sample inp).st = s.st := rfl
@[simp] theorem State.sample_mem (s : State) (inp : StepInput) : (s.sample inp).mem = s.mem := rfl
@[simp] theorem State.sample_fb (s : State) (inp : StepInput) : (s.sample inp).fb = s.fb := rfl
@[simp] theorem State.sample_dirty (s : State) (inp : StepInput) : (s.sample inp).dirty = s.dirty := rfl
@[simp] theorem State.sample_kw (s : State) (inp : StepInput) : (s.sample inp).kw = s.kw := rfl
@[simp] theorem State.sample_status (s : State) (inp : StepInput) : (s.sample inp).status = s.status := rfl
@[simp] theorem State.sample_report (s : State) (inp : StepInput) : (s.sample inp).report = s.report := rfl
@[simp] theorem State.sample_cfg (s : State) (inp : StepInput) : (s.sample inp).cfg = s.cfg := rfl
@[simp] theorem State.sample_input (s : State) (inp : StepInput) : (s.sample inp).input = inp := rfl
@[simp] theorem State.sample_schedule (s : State) (inp : StepInput) : (s.sample inp).schedule = s.schedule := rfl
@[simp] theorem State.sample_issued (s : State) (inp : StepInput) : (s.sample inp).issued = s.issued := rfl

@[simp] theorem State.tick_v (s : State) : (s.tick).v = s.v := rfl
@[simp] theorem State.tick_pc (s : State) : (s.tick).pc = s.pc := rfl
@[simp] theorem State.tick_i (s : State) : (s.tick).i = s.i := rfl
@[simp] theorem State.tick_sp (s : State) : (s.tick).sp = s.sp := rfl
@[simp] theorem State.tick_stk (s : State) : (s.tick).stk = s.stk := rfl
@[simp] theorem State.tick_dt (s : State) : (s.tick).dt = countDown s.dt := rfl
@[simp] theorem State.tick_st (s : State) : (s.tick).st = countDown s.st := rfl
@[simp] theorem State.tick_mem (s : State) : (s.tick).mem = s.mem := rfl
@[simp] theorem State.tick_fb (s : State) : (s.tick).fb = s.fb := rfl
@[simp] theorem State.tick_dirty (s : State) : (s.tick).dirty = s.dirty := rfl
@[simp] theorem State.tick_kw (s : State) : (s.tick).kw = s.kw := rfl
@[simp] theorem State.tick_status (s : State) : (s.tick).status = s.status := rfl
@[simp] theorem State.tick_report (s : State) : (s.tick).report = s.report := rfl
@[simp] theorem State.tick_cfg (s : State) : (s.tick).cfg = s.cfg := rfl
@[simp] theorem State.tick_input (s : State) : (s.tick).input = s.input := rfl
@[simp] theorem State.tick_schedule (s : State) : (s.tick).schedule = s.schedule := rfl
@[simp] theorem State.tick_issued (s : State) : (s.tick).issued = s.issued := rfl

@[simp] theorem State.clearDirty_v (s : State) : (s.clearDirty).v = s.v := rfl
@[simp] theorem State.clearDirty_pc (s : State) : (s.clearDirty).pc = s.pc := rfl
@[simp] theorem State.clearDirty_i (s : State) : (s.clearDirty).i = s.i := rfl
@[simp] theorem State.clearDirty_sp (s : State) : (s.clearDirty).sp = s.sp := rfl
@[simp] theorem State.clearDirty_stk (s : State) : (s.clearDirty).stk = s.stk := rfl
@[simp] theorem State.clearDirty_dt (s : State) : (s.clearDirty).dt = s.dt := rfl
@[simp] theorem State.clearDirty_st (s : State) : (s.clearDirty).st = s.st := rfl
@[simp] theorem State.clearDirty_mem (s : State) : (s.clearDirty).mem = s.mem := rfl
@[simp] theorem State.clearDirty_fb (s : State) : (s.clearDirty).fb = s.fb := rfl
@[simp] theorem State.clearDirty_dirty (s : State) : (s.clearDirty).dirty = false := rfl
@[simp] theorem State.clearDirty_kw (s : State) : (s.clearDirty).kw = s.kw := rfl
@[simp] theorem State.clearDirty_status (s : State) : (s.clearDirty).status = s.status := rfl
@[simp] theorem State.clearDirty_report (s : State) : (s.clearDirty).report = s.report := rfl
@[simp] theorem State.clearDirty_cfg (s : State) : (s.clearDirty).cfg = s.cfg := rfl
@[simp] theorem State.clearDirty_input (s : State) : (s.clearDirty).input = s.input := rfl
@[simp] theorem State.clearDirty_schedule (s : State) : (s.clearDirty).schedule = s.schedule := rfl
@[simp] theorem State.clearDirty_issued (s : State) : (s.clearDirty).issued = s.issued := rfl

@[simp] theorem State.skipInvalid_v (s : State) (w : Word) : (s.skipInvalid w).v = s.v := rfl
@[simp] theorem State.skipInvalid_pc (s : State) (w : Word) : (s.skipInvalid w).pc = s.pc + 2 := rfl
@[simp] theorem State.skipInvalid_i (s : State) (w : Word) : (s.skipInvalid w).i = s.i := rfl
@[simp] theorem State.skipInvalid_sp (s : State) (w : Word) : (s.skipInvalid w).sp = s.sp := rfl
@[simp] theorem State.skipInvalid_stk (s : State) (w : Word) : (s.skipInvalid w).stk = s.stk := rfl
@[simp] theorem State.skipInvalid_dt (s : State) (w : Word) : (s.skipInvalid w).dt = s.dt := rfl
@[simp] theorem State.skipInvalid_st (s : State) (w : Word) : (s.skipInvalid w).st = s.st := rfl
@[simp] theorem State.skipInvalid_mem (s : State) (w : Word) : (s.skipInvalid w).mem = s.mem := rfl
@[simp] theorem State.skipInvalid_fb (s : State) (w : Word) : (s.skipInvalid w).fb = s.fb := rfl
@[simp] theorem State.skipInvalid_dirty (s : State) (w : Word) : (s.skipInvalid w).dirty = s.dirty := rfl
@[simp] theorem State.skipInvalid_kw (s : State) (w : Word) : (s.skipInvalid w).kw = s.kw := rfl
@[simp] theorem State.skipInvalid_status (s : State) (w : Word) : (s.skipInvalid w).status = s.status := rfl
@[simp] theorem State.skipInvalid_report (s : State) (w : Word) : (s.skipInvalid w).report = .decodeError w s.pc := rfl
@[simp] theorem State.skipInvalid_cfg (s : State) (w : Word) : (s.skipInvalid w).cfg = s.cfg := rfl
@[simp] theorem State.skipInvalid_input (s : State) (w : Word) : (s.skipInvalid w).input = s.input := rfl
@[simp] theorem State.skipInvalid_schedule (s : State) (w : Word) : (s.skipInvalid w).schedule = s.schedule := rfl
@[simp] theorem State.skipInvalid_issued (s : State) (w : Word) : (s.skipInvalid w).issued = s.issued := rfl

@[simp] theorem State.takeCommand_v (s : State) : s.takeCommand.v = s.v := by unfold State.takeCommand; split <;> rfl
@[simp] theorem State.takeCommand_pc (s : State) : s.takeCommand.pc = s.pc := by unfold State.takeCommand; split <;> rfl
@[simp] theorem State.takeCommand_i (s : State) : s.takeCommand.i = s.i := by unfold State.takeCommand; split <;> rfl
@[simp] theorem State.takeCommand_sp (s : State) : s.takeCommand.sp = s.sp := by unfold State.takeCommand; split <;> rfl
@[simp] theorem State.takeCommand_stk (s : State) : s.takeCommand.stk = s.stk := by unfold State.takeCommand; split <;> rfl
@[simp] theorem State.takeCommand_dt (s : State) : s.takeCommand.dt = s.dt := by unfold State.takeCommand; split <;> rfl
@[simp] theorem State.takeCommand_st (s : State) : s.takeCommand.st = s.st := by unfold State.takeCommand; split <;> rfl
@[simp] theorem State.takeCommand_mem (s : State) : s.takeCommand.mem = s.mem := by unfold State.takeCommand; split <;> rfl
@[simp] theorem State.takeCommand_fb (s : State) : s.takeCommand.fb = s.fb := by unfold State.takeCommand; split <;> rfl
@[simp] theorem State.takeCommand_dirty (s : State) : s.takeCommand.dirty = s.dirty := by unfold State.takeCommand; split <;> rfl
@[simp] theorem State.takeCommand_kw (s : State) : s.takeCommand.kw = s.kw := by unfold State.takeCommand; split <;> rfl
@[simp] theorem State.takeCommand_status (s : State) : s.takeCommand.status = s.status := by unfold State.takeCommand; split <;> rfl
@[simp] theorem State.takeCommand_report (s : State) : s.takeCommand.report = s.report := by unfold State.takeCommand; split <;> rfl
@[simp] theorem State.takeCommand_cfg (s : State) : s.takeCommand.cfg = s.cfg := by unfold State.takeCommand; split <;> rfl
@[simp] theorem State.takeCommand_input (s : State) : s.takeCommand.input = s.input := by unfold State.takeCommand; split <;> rfl

@[simp] theorem State.resetCommand_v (s : State) : s.resetCommand.v = Vector.replicate 16 0 := rfl
@[simp] theorem State.resetCommand_pc (s : State) : s.resetCommand.pc = 0 := rfl
@[simp] theorem State.resetCommand_i (s : State) : s.resetCommand.i = 0 := rfl
@[simp] theorem State.resetCommand_sp (s : State) : s.resetCommand.sp = 0 := rfl
@[simp] theorem State.resetCommand_stk (s : State) : s.resetCommand.stk = Vector.replicate stackBytes 0 := rfl
@[simp] theorem State.resetCommand_dt (s : State) : s.resetCommand.dt = 0 := rfl
@[simp] theorem State.resetCommand_st (s : State) : s.resetCommand.st = 0 := rfl
@[simp] theorem State.resetCommand_mem (s : State) : s.resetCommand.mem = [] := rfl
@[simp] theorem State.resetCommand_fb (s : State) : s.resetCommand.fb = FrameBuffer.clear := rfl
@[simp] theorem State.resetCommand_dirty (s : State) : s.resetCommand.dirty = s.cfg.dirtyAtReset := rfl
@[simp] theorem State.resetCommand_kw (s : State) : s.resetCommand.kw = none := rfl
@[simp] theorem State.resetCommand_status (s : State) : s.resetCommand.status = .running := rfl
@[simp] theorem State.resetCommand_report (s : State) : s.resetCommand.report = .none := rfl
@[simp] theorem State.resetCommand_cfg (s : State) : s.resetCommand.cfg = s.cfg := rfl
@[simp] theorem State.resetCommand_input (s : State) : s.resetCommand.input = { keys := 0, rnd := 0 } := rfl
@[simp] theorem State.resetCommand_schedule (s : State) : s.resetCommand.schedule = s.schedule := rfl
@[simp] theorem State.resetCommand_issued (s : State) : s.resetCommand.issued = s.issued := rfl

/-! ### Codes -/

/-- Every error has a code of its own, from 1 to 5. -/
theorem CoreError.code_ne_zero (e : CoreError) : e.code ≠ 0 := by cases e <;> simp [CoreError.code]

@[simp] theorem HaltError.payload_error (e : HaltError) : e.error.payload = [e.payload] := by cases e <;> rfl

/-- Code 0 is Running, and nothing else is. -/
theorem Status.code_eq_zero (s : Status) : s.code = 0 ↔ s = .running := by
  cases s with
  | running => simp [Status.code]
  | halted e => simpa [Status.code, HaltError.code] using CoreError.code_ne_zero e.error

/-- An outcome has code 0 exactly when it carries no error. -/
theorem Report.code_eq_zero (r : Report) : r.code = 0 ↔ r.error = Option.none := by
  unfold Report.code
  split
  · rename_i e h; simpa [h] using CoreError.code_ne_zero e
  · rename_i h; simp [h]

end Sys2Proof.Machine
end

