-- ==== Sys2Proof/Laws/Memory.lean ====
section
/-! SUPPORT. Memory: a read after a write, the canonical form, the range check. -/

namespace Sys2Proof.Machine

theorem Memory.read_insert (c : Config) (m : Memory) (a : Nat) (b : Byte) (a' : Nat) :
    Memory.read c (Memory.insert m a b) a' = if a' = a then b else Memory.read c m a' := by
  induction m with
  | nil => rfl
  | cons cell rest ih =>
    obtain ⟨k, w⟩ := cell
    unfold Memory.insert
    split
    · rfl
    · split
      · subst k; simp only [Memory.read]; split <;> rfl
      · simp only [Memory.read, ih]
        split <;> split <;> simp_all

theorem Memory.read_filter (c : Config) (m : Memory) (a a' : Nat) :
    Memory.read c (m.filter (fun cell => cell.1 != a)) a' =
      if a' = a then Memory.background c a else Memory.read c m a' := by
  induction m with
  | nil => simp only [List.filter_nil, Memory.read]; split <;> simp_all
  | cons cell rest ih =>
    obtain ⟨k, w⟩ := cell
    by_cases hk : k = a
    · simp only [List.filter_cons, hk, bne_self_eq_false, Bool.false_eq_true, if_false, ih, Memory.read]
      split <;> rfl
    · have hb : (k != a) = true := by simpa using hk
      simp only [List.filter_cons, hb, if_true, Memory.read, ih]
      split <;> split <;> simp_all

/-- A read after a write gives the value written, and every other address reads as before. -/
theorem Memory.read_write (c : Config) (m : Memory) (a : Nat) (b : Byte) (a' : Nat) :
    Memory.read c (Memory.write c m a b) a' = if a' = a then b else Memory.read c m a' := by
  unfold Memory.write
  split
  · rename_i h; rw [Memory.read_filter, h]
  · exact Memory.read_insert c m a b a'

/-- Outside the stored bytes every address reads as before. -/
theorem Memory.read_writeBytes_outside (c : Config) (bs : List Byte) (m : Memory) (a a' : Nat)
    (h : a' < a ∨ a + bs.length ≤ a') : Memory.read c (Memory.writeBytes c m a bs) a' = Memory.read c m a' := by
  induction bs generalizing m a with
  | nil => rfl
  | cons b bs ih =>
    simp only [List.length_cons] at h
    have hne : a' ≠ a := by omega
    rw [Memory.writeBytes, ih _ _ (by omega), Memory.read_write, if_neg hne]

/-- Inside them, byte j of the stored list. -/
theorem Memory.read_writeBytes_inside (c : Config) (bs : List Byte) (m : Memory) (a j : Nat) (h : j < bs.length) :
    Memory.read c (Memory.writeBytes c m a bs) (a + j) = bs[j] := by
  induction bs generalizing m a j with
  | nil => simp at h
  | cons b bs ih =>
    cases j with
    | zero =>
      rw [Memory.writeBytes, Memory.read_writeBytes_outside _ _ _ _ _ (by omega), Memory.read_write]
      simp
    | succ j =>
      have := ih (Memory.write c m a b) (a + 1) j (by simpa using h)
      rw [Memory.writeBytes, show a + (j + 1) = a + 1 + j by omega, this]
      simp

theorem Memory.mem_insert {m : Memory} {a : Nat} {b : Byte} {p : Host.Cell} (h : p ∈ Memory.insert m a b) :
    p = (a, b) ∨ p ∈ m := by
  induction m with
  | nil => exact .inl (by simpa [Memory.insert] using h)
  | cons cell rest ih =>
    obtain ⟨k, w⟩ := cell
    unfold Memory.insert at h
    split at h
    · simpa using h
    · split at h
      · rcases List.mem_cons.1 h with h | h
        · exact .inl h
        · exact .inr (List.mem_cons_of_mem _ h)
      · rcases List.mem_cons.1 h with h | h
        · exact .inr (h ▸ List.mem_cons_self ..)
        · exact (ih h).imp id (List.mem_cons_of_mem _)

theorem Memory.insert_rising {m : Memory} (a : Nat) (b : Byte) (h : m.Pairwise (fun p q => p.1 < q.1)) :
    (Memory.insert m a b).Pairwise (fun p q => p.1 < q.1) := by
  induction m with
  | nil => simp [Memory.insert]
  | cons cell rest ih =>
    obtain ⟨k, w⟩ := cell
    obtain ⟨h1, h2⟩ := List.pairwise_cons.1 h
    unfold Memory.insert
    split
    · rename_i hlt
      refine List.pairwise_cons.2 ⟨fun q hq => ?_, h⟩
      rcases List.mem_cons.1 hq with rfl | hq
      · exact hlt
      · exact hlt.trans (h1 q hq)
    · split
      · rename_i heq; subst heq
        exact List.pairwise_cons.2 ⟨h1, h2⟩
      · refine List.pairwise_cons.2 ⟨fun q hq => ?_, ih h2⟩
        rcases Memory.mem_insert hq with rfl | hq
        · simp only; omega
        · exact h1 q hq

/-- A write below MEM_BYTES keeps the canonical form. -/
theorem Memory.wf_write {c : Config} {m : Memory} (a : Nat) (b : Byte) (ha : a < memBytes) (h : Memory.wf c m) :
    Memory.wf c (Memory.write c m a b) := by
  unfold Memory.write
  split
  · exact ⟨h.1.filter _, fun p hp => h.2 p (List.mem_of_mem_filter hp)⟩
  · rename_i hb
    refine ⟨Memory.insert_rising a b h.1, fun p hp => ?_⟩
    rcases Memory.mem_insert hp with rfl | hp
    · exact ⟨ha, hb⟩
    · exact h.2 p hp

theorem Memory.wf_writeBytes {c : Config} (bs : List Byte) {m : Memory} (a : Nat) (ha : a + bs.length ≤ memBytes)
    (h : Memory.wf c m) : Memory.wf c (Memory.writeBytes c m a bs) := by
  induction bs generalizing m a with
  | nil => exact h
  | cons b bs ih =>
    rw [List.length_cons] at ha
    exact ih (a + 1) (by omega) (Memory.wf_write a b (by omega) h)

/-- An empty memory is canonical. -/
theorem Memory.wf_nil (c : Config) : Memory.wf c [] := by simp [Memory.wf]

/-- What an unlisted address reads as. -/
theorem Memory.read_of_not_listed {c : Config} {m : Memory} {a : Nat} (h : ∀ p ∈ m, p.1 ≠ a) :
    Memory.read c m a = Memory.background c a := by
  induction m with
  | nil => rfl
  | cons cell rest ih =>
    obtain ⟨k, w⟩ := cell
    have hk : a ≠ k := fun e => h (k, w) (List.mem_cons_self ..) e.symm
    rw [Memory.read, if_neg hk, ih fun p hp => h p (List.mem_cons_of_mem _ hp)]

/-! ### The same for a state -/

theorem State.readByte_storeBytes_outside (s : State) (a : Nat) (bs : List Byte) (a' : Nat)
    (h : a' < a ∨ a + bs.length ≤ a') : (s.storeBytes a bs).readByte a' = s.readByte a' :=
  Memory.read_writeBytes_outside _ _ _ _ _ h

theorem State.readByte_storeBytes_inside (s : State) (a : Nat) (bs : List Byte) (j : Nat) (h : j < bs.length) :
    (s.storeBytes a bs).readByte (a + j) = bs[j] :=
  Memory.read_writeBytes_inside _ _ _ _ _ h

/-- Two states with the same memory and parameters read alike. -/
theorem State.readByte_congr {s t : State} (hm : t.mem = s.mem) (hc : t.cfg = s.cfg) (a : Nat) :
    t.readByte a = s.readByte a := by
  rw [State.readByte, State.readByte, hm, hc]

@[simp] theorem State.readByte_setV (s : State) (r : Reg) (b : Byte) (a : Nat) :
    (s.setV r b).readByte a = s.readByte a := rfl

@[simp] theorem State.readByte_advance (s : State) (a : Nat) : s.advance.readByte a = s.readByte a := rfl

@[simp] theorem State.readByte_skipIf (s : State) (b : Bool) (a : Nat) : (s.skipIf b).readByte a = s.readByte a := rfl

@[simp] theorem State.readByte_sample (s : State) (inp : StepInput) (a : Nat) :
    (s.sample inp).readByte a = s.readByte a := rfl

@[simp] theorem State.readByte_takeCommand (s : State) (a : Nat) : s.takeCommand.readByte a = s.readByte a :=
  State.readByte_congr (by simp) (by simp) a

/-! ### The range check -/

/-- The check passes exactly when the range is empty or inside memory. -/
theorem outOfRange_eq_none {base len : Nat} : outOfRange base len = none ↔ len = 0 ∨ base + len ≤ memBytes := by
  unfold outOfRange
  split <;> simp_all

/-- It fails with the lowest address that does not exist. -/
theorem outOfRange_eq_some {base len a : Nat} :
    outOfRange base len = some a ↔ len ≠ 0 ∧ memBytes < base + len ∧ a = max base memBytes := by
  unfold outOfRange
  split
  · rename_i h
    simp only [reduceCtorEq, false_iff]
    omega
  · rename_i h
    simp only [Option.some.injEq, eq_comm (a := a)]
    omega

end Sys2Proof.Machine
end

