-- ==== Sys2Proof/Laws/Display.lean ====
section
/-! SUPPORT. The frame buffer: one pixel after one write, one sprite bit. -/

namespace Sys2Proof.Machine

/-- A pixel reads what was last written to it, and a write leaves the others alone. -/
theorem FrameBuffer.pixel_setPixel (fb : FrameBuffer) (x : Fin fbWidth) (y : Fin fbHeight) (b : Bool)
    (px : Fin fbWidth) (py : Fin fbHeight) :
    (fb.setPixel x y b).pixel px py = if px = x ∧ py = y then b else fb.pixel px py := by
  simp only [FrameBuffer.pixel, FrameBuffer.setPixel, Fin.getElem_fin, Vector.getElem_set]
  by_cases hy : y.val = py.val
  · have hy' : py = y := Fin.ext hy.symm
    subst hy'
    simp only [if_true, Vector.getElem_set, Fin.ext_iff, eq_comm (a := x.val), and_true]
  · have hy' : ¬ py = y := fun e => hy (by rw [e])
    simp [hy, hy']

@[simp] theorem FrameBuffer.pixel_clear (x : Fin fbWidth) (y : Fin fbHeight) : FrameBuffer.clear.pixel x y = false := by
  simp [FrameBuffer.clear, FrameBuffer.pixel]

/-- One sprite bit inverts its pixel if it is 1. -/
theorem Draw.pixel_bit (d : Draw) (x : Fin fbWidth) (y : Fin fbHeight) (b : Bool) (px : Fin fbWidth) (py : Fin fbHeight) :
    (d.bit x y b).fb.pixel px py = (d.fb.pixel px py ^^ (b && decide (px = x ∧ py = y))) := by
  unfold Draw.bit
  split
  · rename_i hb
    rw [FrameBuffer.pixel_setPixel]
    by_cases h : px = x ∧ py = y
    · obtain ⟨rfl, rfl⟩ := h; simp [hb]
    · simp [h]
  · rename_i hb
    simp only [Bool.not_eq_true] at hb
    simp [hb]

/-- It collides if it is 1 and the pixel was lit. -/
theorem Draw.collide_bit (d : Draw) (x : Fin fbWidth) (y : Fin fbHeight) (b : Bool) :
    (d.bit x y b).collide = (d.collide || (b && d.fb.pixel x y)) := by
  unfold Draw.bit
  split <;> simp_all

/-- Frame buffers with the same pixels are equal. -/
theorem FrameBuffer.ext_pixel {f g : FrameBuffer} (h : ∀ px py, f.pixel px py = g.pixel px py) : f = g :=
  Vector.ext fun j hj => Vector.ext fun i hi => h ⟨i, hi⟩ ⟨j, hj⟩

/-! ### A whole sprite -/

/-- The 8 bits of a sprite row fall on 8 different columns. -/
theorem pixelColumn_injective (x0 : Byte) {c c' : Nat} (h : c < 8) (h' : c' < 8)
    (e : pixelColumn x0 c = pixelColumn x0 c') : c = c' := by
  have := congrArg Fin.val e
  simp only [pixelColumn, Fin.ofNat, fbWidth] at this
  omega

/-- The rows of a sprite fall on different rows. -/
theorem pixelRow_injective (y0 : Byte) {r r' : Nat} (h : r < 16) (h' : r' < 16) (e : pixelRow y0 r = pixelRow y0 r') :
    r = r' := by
  have := congrArg Fin.val e
  simp only [pixelRow, Fin.ofNat, fbHeight] at this
  omega

/-- Bit n of a row falls where none of the bits before it fell. -/
theorem Draw.pixel_bits_next (d : Draw) (x0 : Byte) (y : Fin fbHeight) (b : Byte) (n : Nat) (hn : n < 8) (c : Nat)
    (hc : n ≤ c) (hc8 : c < 8) : (d.bits x0 y b n).fb.pixel (pixelColumn x0 c) y = d.fb.pixel (pixelColumn x0 c) y := by
  induction n with
  | zero => rfl
  | succ n ih =>
    have hne : pixelColumn x0 c ≠ pixelColumn x0 n := fun e => by
      have := pixelColumn_injective x0 hc8 (by omega) e; omega
    rw [Draw.bits, Draw.pixel_bit, ih (by omega) (by omega)]
    simp [hne]

/-- The first n bits of a sprite row: the pixels they cover are inverted, the others stay. -/
theorem Draw.pixel_bits (d : Draw) (x0 : Byte) (y : Fin fbHeight) (b : Byte) (n : Nat) (hn : n ≤ 8) (px : Fin fbWidth)
    (py : Fin fbHeight) : ((d.bits x0 y b n).fb.pixel px py ≠ d.fb.pixel px py) ↔
      py = y ∧ ∃ c, c < n ∧ px = pixelColumn x0 c ∧ spriteBit b c = true := by
  induction n with
  | zero => simp [Draw.bits]
  | succ n ih =>
    have ih := ih (by omega)
    rw [Draw.bits, Draw.pixel_bit]
    by_cases h : px = pixelColumn x0 n ∧ py = y
    · obtain ⟨rfl, rfl⟩ := h
      rw [Draw.pixel_bits_next d x0 _ b n (by omega) n (Nat.le_refl n) (by omega)]
      have : (∃ c, c < n + 1 ∧ pixelColumn x0 n = pixelColumn x0 c ∧ spriteBit b c = true) ↔ spriteBit b n = true := by
        constructor
        · rintro ⟨c, hc, e, h⟩
          have := pixelColumn_injective x0 (by omega) (by omega) e; subst this; exact h
        · exact fun h => ⟨n, by omega, rfl, h⟩
      rw [this]
      cases spriteBit b n <;> simp
    · rw [decide_eq_false h, Bool.and_false, Bool.xor_false, ih]
      refine and_congr_right fun hy => ⟨fun ⟨c, hc, h'⟩ => ⟨c, by omega, h'⟩, fun ⟨c, hc, e, h'⟩ => ⟨c, ?_, e, h'⟩⟩
      have : c ≠ n := fun ec => h ⟨ec ▸ e, hy⟩
      omega

/-- The first n bits of a sprite row collide when one of them falls on a lit pixel. -/
theorem Draw.collide_bits (d : Draw) (x0 : Byte) (y : Fin fbHeight) (b : Byte) (n : Nat) (hn : n ≤ 8) :
    (d.bits x0 y b n).collide = true ↔ d.collide = true ∨
      ∃ c, c < n ∧ spriteBit b c = true ∧ d.fb.pixel (pixelColumn x0 c) y = true := by
  induction n with
  | zero => simp [Draw.bits]
  | succ n ih =>
    rw [Draw.bits, Draw.collide_bit, Draw.pixel_bits_next d x0 y b n (by omega) n (Nat.le_refl n) (by omega), Bool.or_eq_true,
      ih (by omega), Bool.and_eq_true, or_assoc]
    refine or_congr_right ⟨?_, ?_⟩
    · rintro (⟨c, hc, h⟩ | h)
      · exact ⟨c, by omega, h⟩
      · exact ⟨n, by omega, h⟩
    · rintro ⟨c, hc, h⟩
      rcases Nat.lt_or_ge c n with h' | h'
      · exact .inl ⟨c, h', h⟩
      · have : c = n := by omega
        exact .inr (this ▸ h)

end Sys2Proof.Machine
end

