-- ==== Sys2Proof/Laws/PerInstr.lean ====
section
/-! SUPPORT. The three masks of the opcode table on built words, and for every instruction the row of the table its word is of. -/

namespace Sys2Proof

/-- Mask 0xF000 on format ADDR keeps F. -/
theorem wordAddr_and_F000 (f : BitVec 4) (nnn : BitVec 12) : wordAddr f nnn &&& (0xF000 : Word) = wordAddr f 0 := by
  apply BitVec.eq_of_getLsbD_eq
  intro i hi
  rw [BitVec.getLsbD_and, getLsbD_wordAddr, getLsbD_wordAddr]
  interval_cases i <;> simp

/-- Mask 0xF000 on format REG_IMM keeps F. -/
theorem wordRegByte_and_F000 (f : BitVec 4) (x : Reg) (nn : Byte) : wordRegByte f x nn &&& (0xF000 : Word) = wordAddr f 0 := by
  apply BitVec.eq_of_getLsbD_eq
  intro i hi
  rw [BitVec.getLsbD_and, getLsbD_wordRegByte, getLsbD_wordAddr]
  interval_cases i <;> simp

/-- Mask 0xF0FF on format REG_SUB keeps F and NN. -/
theorem wordRegByte_and_F0FF (f : BitVec 4) (x : Reg) (nn : Byte) : wordRegByte f x nn &&& (0xF0FF : Word) = wordRegByte f 0 nn := by
  apply BitVec.eq_of_getLsbD_eq
  intro i hi
  rw [BitVec.getLsbD_and, getLsbD_wordRegByte, getLsbD_wordRegByte]
  interval_cases i <;> simp

/-- Mask 0xF00F on format REG_REG keeps F and N. -/
theorem wordRegReg_and_F00F (f : BitVec 4) (x y : Reg) (n : BitVec 4) : wordRegReg f x y n &&& (0xF00F : Word) = wordRegReg f 0 0 n := by
  apply BitVec.eq_of_getLsbD_eq
  intro i hi
  rw [BitVec.getLsbD_and, getLsbD_wordRegReg, getLsbD_wordRegReg]
  interval_cases i <;> simp

/-- Mask 0xF000 on format REG_REG_N keeps F. -/
theorem wordRegReg_and_F000 (f : BitVec 4) (x y : Reg) (n : BitVec 4) : wordRegReg f x y n &&& (0xF000 : Word) = wordAddr f 0 := by
  apply BitVec.eq_of_getLsbD_eq
  intro i hi
  rw [BitVec.getLsbD_and, getLsbD_wordRegReg, getLsbD_wordAddr]
  interval_cases i <;> simp

namespace Laws

/-- The row `n` of the opcode table (30_encoding.md R85, counted from 0) holds the instruction: its word matches the row, and
reading the row's fields from the word gives the instruction back when it is well formed. -/
def InRow (i : Instr) (n : Nat) : Prop :=
  ∃ r, opcodeTable[n]? = some r ∧ r.matches (encode i) = true ∧ (i.wellFormed = true → r.read (encode i) = i)

/-- The word of the instruction is of one row of the opcode table, and of the right one. -/
def EncodesInRow.Statement (i : Instr) : Prop := ∃ n, InRow i n

theorem EncodesInRow.cls : Statement .cls :=
  ⟨0, ⟨_, rfl, by decide, fun _ => rfl⟩⟩

theorem EncodesInRow.ret : Statement .ret :=
  ⟨1, ⟨_, rfl, by decide, fun _ => rfl⟩⟩

theorem EncodesInRow.jp (nnn : BitVec 12) : Statement (.jp nnn) :=
  ⟨2, ⟨_, rfl, by simp only [OpcodeRow.matches, encode, wordAddr_and_F000]; decide, fun _ => by simp [encode]⟩⟩

theorem EncodesInRow.call (nnn : BitVec 12) : Statement (.call nnn) :=
  ⟨3, ⟨_, rfl, by simp only [OpcodeRow.matches, encode, wordAddr_and_F000]; decide, fun _ => by simp [encode]⟩⟩

theorem EncodesInRow.seImm (x : Reg) (nn : Byte) : Statement (.seImm x nn) :=
  ⟨4, ⟨_, rfl, by simp only [OpcodeRow.matches, encode, wordRegByte_and_F000]; decide, fun _ => by simp [encode]⟩⟩

theorem EncodesInRow.sneImm (x : Reg) (nn : Byte) : Statement (.sneImm x nn) :=
  ⟨5, ⟨_, rfl, by simp only [OpcodeRow.matches, encode, wordRegByte_and_F000]; decide, fun _ => by simp [encode]⟩⟩

theorem EncodesInRow.seReg (x y : Reg) : Statement (.seReg x y) :=
  ⟨6, ⟨_, rfl, by simp only [OpcodeRow.matches, encode, wordRegReg_and_F00F]; decide, fun _ => by simp [encode]⟩⟩

theorem EncodesInRow.ldImm (x : Reg) (nn : Byte) : Statement (.ldImm x nn) :=
  ⟨7, ⟨_, rfl, by simp only [OpcodeRow.matches, encode, wordRegByte_and_F000]; decide, fun _ => by simp [encode]⟩⟩

theorem EncodesInRow.addImm (x : Reg) (nn : Byte) : Statement (.addImm x nn) :=
  ⟨8, ⟨_, rfl, by simp only [OpcodeRow.matches, encode, wordRegByte_and_F000]; decide, fun _ => by simp [encode]⟩⟩

theorem EncodesInRow.ldReg (x y : Reg) : Statement (.ldReg x y) :=
  ⟨9, ⟨_, rfl, by simp only [OpcodeRow.matches, encode, wordRegReg_and_F00F]; decide, fun _ => by simp [encode]⟩⟩

theorem EncodesInRow.orReg (x y : Reg) : Statement (.orReg x y) :=
  ⟨10, ⟨_, rfl, by simp only [OpcodeRow.matches, encode, wordRegReg_and_F00F]; decide, fun _ => by simp [encode]⟩⟩

theorem EncodesInRow.andReg (x y : Reg) : Statement (.andReg x y) :=
  ⟨11, ⟨_, rfl, by simp only [OpcodeRow.matches, encode, wordRegReg_and_F00F]; decide, fun _ => by simp [encode]⟩⟩

theorem EncodesInRow.xorReg (x y : Reg) : Statement (.xorReg x y) :=
  ⟨12, ⟨_, rfl, by simp only [OpcodeRow.matches, encode, wordRegReg_and_F00F]; decide, fun _ => by simp [encode]⟩⟩

theorem EncodesInRow.addReg (x y : Reg) : Statement (.addReg x y) :=
  ⟨13, ⟨_, rfl, by simp only [OpcodeRow.matches, encode, wordRegReg_and_F00F]; decide, fun _ => by simp [encode]⟩⟩

theorem EncodesInRow.subReg (x y : Reg) : Statement (.subReg x y) :=
  ⟨14, ⟨_, rfl, by simp only [OpcodeRow.matches, encode, wordRegReg_and_F00F]; decide, fun _ => by simp [encode]⟩⟩

theorem EncodesInRow.shr (x y : Reg) : Statement (.shr x y) :=
  ⟨15, ⟨_, rfl, by simp only [OpcodeRow.matches, encode, wordRegReg_and_F00F]; decide, fun _ => by simp [encode]⟩⟩

theorem EncodesInRow.subn (x y : Reg) : Statement (.subn x y) :=
  ⟨16, ⟨_, rfl, by simp only [OpcodeRow.matches, encode, wordRegReg_and_F00F]; decide, fun _ => by simp [encode]⟩⟩

theorem EncodesInRow.shl (x y : Reg) : Statement (.shl x y) :=
  ⟨17, ⟨_, rfl, by simp only [OpcodeRow.matches, encode, wordRegReg_and_F00F]; decide, fun _ => by simp [encode]⟩⟩

theorem EncodesInRow.sneReg (x y : Reg) : Statement (.sneReg x y) :=
  ⟨18, ⟨_, rfl, by simp only [OpcodeRow.matches, encode, wordRegReg_and_F00F]; decide, fun _ => by simp [encode]⟩⟩

theorem EncodesInRow.ldI (nnn : BitVec 12) : Statement (.ldI nnn) :=
  ⟨19, ⟨_, rfl, by simp only [OpcodeRow.matches, encode, wordAddr_and_F000]; decide, fun _ => by simp [encode]⟩⟩

theorem EncodesInRow.jpV0 (nnn : BitVec 12) : Statement (.jpV0 nnn) :=
  ⟨20, ⟨_, rfl, by simp only [OpcodeRow.matches, encode, wordAddr_and_F000]; decide, fun _ => by simp [encode]⟩⟩

theorem EncodesInRow.rnd (x : Reg) (nn : Byte) : Statement (.rnd x nn) :=
  ⟨21, ⟨_, rfl, by simp only [OpcodeRow.matches, encode, wordRegByte_and_F000]; decide, fun _ => by simp [encode]⟩⟩

theorem EncodesInRow.drw (x y : Reg) (n : Nat) : Statement (.drw x y n) :=
  ⟨22, ⟨_, rfl, by
    simp only [OpcodeRow.matches, encode, wordRegReg_and_F000]; decide, fun h => by
    have hn : n ≤ 15 := by simpa [Instr.wellFormed] using h
    simp [encode, Nat.mod_eq_of_lt (show n < 16 by omega)]⟩⟩

theorem EncodesInRow.skp (x : Reg) : Statement (.skp x) :=
  ⟨23, ⟨_, rfl, by simp only [OpcodeRow.matches, encode, wordRegByte_and_F0FF]; decide, fun _ => by simp [encode]⟩⟩

theorem EncodesInRow.sknp (x : Reg) : Statement (.sknp x) :=
  ⟨24, ⟨_, rfl, by simp only [OpcodeRow.matches, encode, wordRegByte_and_F0FF]; decide, fun _ => by simp [encode]⟩⟩

theorem EncodesInRow.ldVxDT (x : Reg) : Statement (.ldVxDT x) :=
  ⟨25, ⟨_, rfl, by simp only [OpcodeRow.matches, encode, wordRegByte_and_F0FF]; decide, fun _ => by simp [encode]⟩⟩

theorem EncodesInRow.ldVxK (x : Reg) : Statement (.ldVxK x) :=
  ⟨26, ⟨_, rfl, by simp only [OpcodeRow.matches, encode, wordRegByte_and_F0FF]; decide, fun _ => by simp [encode]⟩⟩

theorem EncodesInRow.ldDTVx (x : Reg) : Statement (.ldDTVx x) :=
  ⟨27, ⟨_, rfl, by simp only [OpcodeRow.matches, encode, wordRegByte_and_F0FF]; decide, fun _ => by simp [encode]⟩⟩

theorem EncodesInRow.ldSTVx (x : Reg) : Statement (.ldSTVx x) :=
  ⟨28, ⟨_, rfl, by simp only [OpcodeRow.matches, encode, wordRegByte_and_F0FF]; decide, fun _ => by simp [encode]⟩⟩

theorem EncodesInRow.addI (x : Reg) : Statement (.addI x) :=
  ⟨29, ⟨_, rfl, by simp only [OpcodeRow.matches, encode, wordRegByte_and_F0FF]; decide, fun _ => by simp [encode]⟩⟩

theorem EncodesInRow.ldF (x : Reg) : Statement (.ldF x) :=
  ⟨30, ⟨_, rfl, by simp only [OpcodeRow.matches, encode, wordRegByte_and_F0FF]; decide, fun _ => by simp [encode]⟩⟩

theorem EncodesInRow.ldB (x : Reg) : Statement (.ldB x) :=
  ⟨31, ⟨_, rfl, by simp only [OpcodeRow.matches, encode, wordRegByte_and_F0FF]; decide, fun _ => by simp [encode]⟩⟩

theorem EncodesInRow.storeRegs (x : Reg) : Statement (.storeRegs x) :=
  ⟨32, ⟨_, rfl, by simp only [OpcodeRow.matches, encode, wordRegByte_and_F0FF]; decide, fun _ => by simp [encode]⟩⟩

theorem EncodesInRow.loadRegs (x : Reg) : Statement (.loadRegs x) :=
  ⟨33, ⟨_, rfl, by simp only [OpcodeRow.matches, encode, wordRegByte_and_F0FF]; decide, fun _ => by simp [encode]⟩⟩

end Laws
end Sys2Proof
end

