-- ==== Sys2Proof/Laws/Registers.lean ====
section
/-! SUPPORT. The register file. -/

namespace Sys2Proof.Machine

/-- A register reads what was last written to it, and a write leaves the others alone. -/
theorem State.getV_setV (s : State) (r : Reg) (b : Byte) (q : Reg) :
    (s.setV r b).getV q = if q = r then b else s.getV q := by
  simp only [State.getV, State.setV, Fin.getElem_fin, Vector.getElem_set, Fin.ext_iff, eq_comm (a := r.val)]

@[simp] theorem State.getV_setV_same (s : State) (r : Reg) (b : Byte) : (s.setV r b).getV r = b := by
  rw [State.getV_setV, if_pos rfl]

theorem State.getV_setV_other (s : State) {r q : Reg} (b : Byte) (h : q ≠ r) : (s.setV r b).getV q = s.getV q := by
  rw [State.getV_setV, if_neg h]

@[simp] theorem State.getV_advance (s : State) (q : Reg) : s.advance.getV q = s.getV q := rfl

@[simp] theorem State.getV_skipIf (s : State) (b : Bool) (q : Reg) : (s.skipIf b).getV q = s.getV q := rfl

@[simp] theorem State.getV_storeBytes (s : State) (a : Nat) (bs : List Byte) (q : Reg) :
    (s.storeBytes a bs).getV q = s.getV q := rfl

@[simp] theorem State.getV_sample (s : State) (inp : StepInput) (q : Reg) : (s.sample inp).getV q = s.getV q := rfl

/-- Filling puts byte j in register j below the count and leaves the rest. -/
theorem getElem_fillRegisters (byteAt : Nat → Byte) (n : Nat) (v : Registers) (j : Nat) (hj : j < 16) :
    (fillRegisters byteAt n v)[j] = if j < n then byteAt j else v[j] := by
  induction n with
  | zero => simp [fillRegisters]
  | succ n ih =>
    rw [fillRegisters, Vector.getElem_setIfInBounds, ih]
    rcases Nat.lt_trichotomy j n with h | h | h
    · rw [if_neg (by omega), if_pos h, if_pos (by omega)]
    · subst h; simp
    · rw [if_neg (by omega), if_neg (by omega), if_neg (by omega)]

@[simp] theorem State.length_firstRegisters (s : State) (n : Nat) : (s.firstRegisters n).length = min n 16 := by
  simp [State.firstRegisters]

/-- Byte j of the first n registers is V[j]. -/
theorem State.getElem_firstRegisters (s : State) (n j : Nat) (h : j < (s.firstRegisters n).length) :
    (s.firstRegisters n)[j] = s.v[j]'(by simp at h; omega) := by
  simp [State.firstRegisters]

end Sys2Proof.Machine
end

