-- ==== Sys2Proof/Laws/Stack.lean ====
section
/-! SUPPORT. The call stack: everything Push and Pop can do. -/

namespace Sys2Proof

namespace Machine

/-- Push fails exactly on a full stack. -/
theorem State.push_eq_none {s : State} {w : Word} : s.push w = none ↔ stackBytes < s.sp.toNat + 2 := by
  unfold State.push
  split <;> simp_all

/-- Otherwise it stores the two bytes at SP and raises SP by 2, and changes nothing else. -/
theorem State.push_eq_some {s t : State} {w : Word} : s.push w = some t ↔ s.sp.toNat + 2 ≤ stackBytes ∧
    t = { s with
      stk := (s.stk.setIfInBounds s.sp.toNat (highByte w)).setIfInBounds (s.sp.toNat + 1) (lowByte w), sp := s.sp + 2 } := by
  unfold State.push
  split
  · simp; omega
  · simp only [Option.some.injEq, eq_comm (a := t)]
    constructor
    · exact fun h => ⟨by omega, h⟩
    · exact fun h => h.2

theorem State.pop_eq_underflow {s : State} (h : s.sp.toNat < 2) : s.pop = .underflow := by
  rw [State.pop, if_pos h]

theorem State.pop_eq_outsideBuffer {s : State} (h : stackBytes < s.sp.toNat) : s.pop = .outsideBuffer := by
  rw [State.pop, if_neg (by simp only [stackBytes] at h; omega)]
  have : s.stk[s.sp.toNat - 1]? = none := by
    rw [Vector.getElem?_eq_none_iff]
    omega
  rw [this]
  split <;> simp_all

/-- Inside the buffer Pop reads the two bytes below SP and lowers SP by 2. -/
theorem State.pop_eq_value {s : State} (h2 : 2 ≤ s.sp.toNat) (h32 : s.sp.toNat ≤ stackBytes) :
    s.pop = .value
      (joinBytes ((s.stk[s.sp.toNat - 2]?).getD 0) ((s.stk[s.sp.toNat - 1]?).getD 0)) { s with sp := s.sp - 2 } := by
  rw [State.pop, if_neg (by omega)]
  simp only [stackBytes] at h32
  have h0 : s.sp.toNat - 2 < 32 := by omega
  have h1 : s.sp.toNat - 1 < 32 := by omega
  rw [Vector.getElem?_eq_getElem h0, Vector.getElem?_eq_getElem h1]
  rfl

end Machine
end Sys2Proof
end

