-- ==== Sys2Proof/Laws/Step.lean ====
section
/-! SUPPORT. One step taken apart: the command, the fetch, the key wait, the timers, Load, and the frame of an instruction
that writes registers only. -/

namespace Sys2Proof.Machine

/-! ### The command -/

theorem State.takeCommand_eq_afterTaking (s : State) : s.takeCommand = s.afterTaking := by
  unfold State.takeCommand State.afterTaking
  split
  · rename_i h; simp [h]
  · rename_i h; simp [h]

/-- A step runs the driver's next command. -/
theorem step_of_nextCommand {s : State} {c : Command} (h : s.nextCommand = c) : step s = s.afterTaking.runCommand c := by
  rw [step, h, State.takeCommand_eq_afterTaking]

/-- A Step command of a halted core. -/
theorem State.stepCommand_halted {s : State} {e : HaltError} (h : s.status = .halted e) :
    s.stepCommand = .next { s with report := .halted e } := by
  rw [State.stepCommand, h]

/-- A Step command during a key wait. -/
theorem State.stepCommand_waiting {s : State} {r : Reg} (hs : s.status = .running) (hk : s.kw = some r) :
    s.stepCommand = .next (s.keyWaitStep r) := by
  rw [State.stepCommand, hs]
  simp only [hk]

/-- A Step command that fetches. -/
theorem State.stepCommand_fetching {s : State} (hs : s.status = .running) (hk : s.kw = none) :
    s.stepCommand = s.fetchExecute := by
  rw [State.stepCommand, hs]
  simp only [hk]

/-! ### The fetch -/

theorem State.fetchExecute_outside {s : State} {a : Nat} (h : outOfRange s.pc.toNat 2 = some a) :
    s.fetchExecute = s.raiseError (.outOfMemory a) := by
  rw [State.fetchExecute, h]

/-- A fetch inside memory whose word is an instruction. -/
theorem State.fetchExecute_instruction {s : State} {i : Instr} (h : s.pc.toNat + 2 ≤ memBytes)
    (hd : decodeWord s.fetchWord = .ok i) : s.fetchExecute = exec i s := by
  simp only [State.fetchExecute, outOfRange_eq_none.2 (Or.inr h), hd]

/-- A fetch inside memory whose word is none. -/
theorem State.fetchExecute_invalid {s : State} {why : Reject} (h : s.pc.toNat + 2 ≤ memBytes)
    (hd : decodeWord s.fetchWord = .error why) : s.fetchExecute = .next (s.skipInvalid s.fetchWord) := by
  simp only [State.fetchExecute, outOfRange_eq_none.2 (Or.inr h), hd]

/-! ### The key wait -/

/-- The scan finds the lowest pressed key. -/
theorem firstPressed_eq_some {input : StepInput} {k : Reg} : firstPressed input = some k ↔
    pressed input k.val = true ∧ ∀ j : Reg, j < k → pressed input j.val = false := by
  have hl : keyIndexes = List.finRange 16 := by decide
  rw [firstPressed, hl, List.find?_eq_some_iff_getElem]
  refine and_congr_right fun _ => ⟨?_, fun h => ?_⟩
  · rintro ⟨i, hi, hik, h⟩ j hj
    have hik : i = k.val := by rw [← hik]; simp
    have := h j.val (by rw [hik]; exact Fin.lt_def.1 hj)
    simpa using this
  · refine ⟨k.val, by simp, by simp, fun j hj => ?_⟩
    have := h ⟨j, by omega⟩ (Fin.lt_def.2 hj)
    simpa using this

/-- The scan finds nothing exactly when no key is pressed. -/
theorem firstPressed_eq_none {input : StepInput} :
    firstPressed input = none ↔ ∀ k : Reg, pressed input k.val = false := by
  have hl : keyIndexes = List.finRange 16 := by decide
  simp [firstPressed, hl, List.find?_eq_none]

/-! ### The timers and Load -/

theorem toNat_countDown (b : Byte) : (countDown b).toNat = b.toNat - 1 := by
  rw [countDown]
  split
  · rw [BitVec.toNat_sub]; simp; omega
  · simp; omega

theorem State.load_tooLong {s : State} {image : List Byte} (h : maxImage < image.length) :
    s.load image = { s with report := .loadOutOfMemory memBytes } := by
  rw [State.load, if_pos h]

theorem State.load_fits {s : State} {image : List Byte} (h : image.length ≤ maxImage) :
    s.load image = { s.storeBytes progBase image with pc := BitVec.ofNat 16 progBase, report := .loaded } := by
  rw [State.load, if_neg (by omega)]

/-! ### Frames -/

/-- A state that differs in PC and the report only keeps everything. -/
theorem Keeps.of_pc_report (f : Footprint) {s t : State} (h : t = { s with pc := t.pc, report := t.report }) :
    Keeps f s t := by
  rw [h]; constructor <;> intros <;> first | rfl | exact ⟨rfl, rfl⟩

/-- A state that differs in registers, PC and the report keeps everything but the registers written. -/
theorem Keeps.of_registers {f : Footprint} {s t : State} (h : t = { s with v := t.v, pc := t.pc, report := t.report })
    (hr : ∀ r, r ∉ f.regs → t.getV r = s.getV r) : Keeps f s t := by
  constructor
  · exact hr
  all_goals rw [h]; try (intros; first | rfl | exact ⟨rfl, rfl⟩)

theorem toNat_zextAddr (nnn : BitVec 12) : (zextAddr nnn).toNat = nnn.toNat := by
  rw [zextAddr, BitVec.toNat_setWidth]; omega

theorem toNat_zextByte (b : Byte) : (zextByte b).toNat = b.toNat := by
  rw [zextByte, BitVec.toNat_setWidth]; omega

theorem toNat_flagByte (b : Bool) : (flagByte b).toNat = if b = true then 1 else 0 := by cases b <;> rfl

end Sys2Proof.Machine
end

