-- ==== Sys2Proof/Tests/Slice0.lean ====
section
/-! SUPPORT. Tests. Expected values: words from the encodings of 30_encoding.md and 41 to 45, results from the vectors of
95_test_vectors.md (their ids stand in the comments). Then one witness for each obligation that has hypotheses. -/

namespace Sys2Proof.Machine.Tests

/-! ### Decoding: every constructor, its word from the Encoding line of its rule -/

theorem test_decode_fixed : decodeWord 0x00E0 = .ok .cls ∧ decodeWord 0x00EE = .ok .ret := by decide

theorem test_decode_addr : decodeWord 0x1ABC = .ok (.jp 0xABC) ∧ decodeWord 0x2345 = .ok (.call 0x345) ∧
    decodeWord 0xA123 = .ok (.ldI 0x123) ∧ decodeWord 0xBFFF = .ok (.jpV0 0xFFF) := by decide

theorem test_decode_reg_imm : decodeWord 0x3107 = .ok (.seImm 1 0x07) ∧ decodeWord 0x4F80 = .ok (.sneImm 15 0x80) ∧
    decodeWord 0x6A2B = .ok (.ldImm 10 0x2B) ∧ decodeWord 0x70FF = .ok (.addImm 0 0xFF) ∧
    decodeWord 0xC30F = .ok (.rnd 3 0x0F) := by decide

theorem test_decode_reg_reg : decodeWord 0x5120 = .ok (.seReg 1 2) ∧ decodeWord 0x9EF0 = .ok (.sneReg 14 15) ∧
    decodeWord 0x8120 = .ok (.ldReg 1 2) ∧ decodeWord 0x8121 = .ok (.orReg 1 2) ∧ decodeWord 0x8122 = .ok (.andReg 1 2) ∧
    decodeWord 0x8123 = .ok (.xorReg 1 2) ∧ decodeWord 0x81F4 = .ok (.addReg 1 15) ∧ decodeWord 0x8015 = .ok (.subReg 0 1) ∧
    decodeWord 0x8056 = .ok (.shr 0 5) ∧ decodeWord 0x8F17 = .ok (.subn 15 1) ∧ decodeWord 0x8CDE = .ok (.shl 12 13) := by
  decide

theorem test_decode_reg_reg_n : decodeWord 0xD12F = .ok (.drw 1 2 15) ∧ decodeWord 0xDEF0 = .ok (.drw 14 15 0) := by decide

theorem test_decode_reg_sub : decodeWord 0xE59E = .ok (.skp 5) ∧ decodeWord 0xE5A1 = .ok (.sknp 5) ∧
    decodeWord 0xF307 = .ok (.ldVxDT 3) ∧ decodeWord 0xFF0A = .ok (.ldVxK 15) ∧ decodeWord 0xF315 = .ok (.ldDTVx 3) ∧
    decodeWord 0xF318 = .ok (.ldSTVx 3) ∧ decodeWord 0xF01E = .ok (.addI 0) ∧ decodeWord 0xF029 = .ok (.ldF 0) ∧
    decodeWord 0xFA33 = .ok (.ldB 10) ∧ decodeWord 0xF255 = .ok (.storeRegs 2) ∧ decodeWord 0xF265 = .ok (.loadRegs 2) := by
  decide

/-! Invalid words of R87, at the edges of its list (S-1, S-3 to S-7). -/

theorem test_invalid_family_zero : decodeWord 0x0000 = .error (.invalidWord 0x0000) ∧
    decodeWord 0x0FFF = .error (.invalidWord 0x0FFF) ∧
    decodeWord 0x00E1 = .error (.invalidWord 0x00E1) ∧
    decodeWord 0x00EF = .error (.invalidWord 0x00EF) ∧
    decodeWord 0x01E0 = .error (.invalidWord 0x01E0) := by decide

theorem test_invalid_family_five_nine : decodeWord 0x5121 = .error (.invalidWord 0x5121) ∧
    decodeWord 0x512F = .error (.invalidWord 0x512F) ∧
    decodeWord 0x9121 = .error (.invalidWord 0x9121) := by decide

theorem test_invalid_family_eight : decodeWord 0x8008 = .error (.invalidWord 0x8008) ∧
    decodeWord 0x800D = .error (.invalidWord 0x800D) ∧
    decodeWord 0x800F = .error (.invalidWord 0x800F) := by decide

theorem test_invalid_family_E : decodeWord 0xE09F = .error (.invalidWord 0xE09F) ∧
    decodeWord 0xE000 = .error (.invalidWord 0xE000) ∧
    decodeWord 0xE0A2 = .error (.invalidWord 0xE0A2) := by decide

theorem test_invalid_family_F : decodeWord 0xF000 = .error (.invalidWord 0xF000) ∧
    decodeWord 0xF066 = .error (.invalidWord 0xF066) ∧
    decodeWord 0xF0FF = .error (.invalidWord 0xF0FF) := by decide

/-- Bytes: high byte first (R54), the rest returned, one byte is no instruction. -/
theorem test_decode_bytes : decode [0x61, 0x07, 0xAA] = .ok (.ldImm 1 0x07, [0xAA]) ∧ decode [0x61] = .error .truncated := by
  decide

theorem test_encode_bytes : encodeBytes (.drw 1 2 5) = [0xD1, 0x25] ∧ encodeBytes (.storeRegs 11) = [0xFB, 0x55] := by decide

/-- The one check of WellFormed: a sprite of 16 rows has no encoding. -/
theorem test_wellFormed_refuses_sixteen_rows :
    (Instr.drw 0 0 16).wellFormed = false ∧ (Instr.drw 0 0 15).wellFormed = true := by decide

/-! ### One step -/

/-- The launch state of R275 for one word, with some registers set; the next command is a Step without inputs. -/
def launch (w : Word) (regs : List (Reg × Byte)) : State :=
  { regs.foldl (fun s p => s.setV p.1 p.2) (State.reset.storeBytes progBase [highByte w, lowByte w]) with
    pc := 0x200, schedule := [.step { keys := 0, rnd := 0 }] }

/-- What `f` shows of the next state. -/
def after {α : Type} (s : State) (f : State → α) : Option α :=
  match step s with
  | .next t => some (f t)
  | .fault _ | .refused _ => none

/-- CF-1. -/
theorem test_ret : after { launch 0x00EE [] with sp := 2, stk := (launch 0 []).stk.set 0 0x03 |>.set 1 0x4A }
    (fun t => (t.pc, t.sp)) = some (0x34A, 0) := by decide

/-- CF-2. -/
theorem test_ret_underflow : after (launch 0x00EE []) (fun t => (t.pc, t.status)) =
    some (0x200, .halted (.stackUnderflow 0)) := by decide

/-- CF-3. -/
theorem test_jp : after (launch 0x1234 []) (fun t => t.pc) = some 0x234 := by decide

/-- CF-7: the last frame. -/
theorem test_call : after { launch 0x2345 [] with sp := 30 } (fun t => (t.pc, t.sp, t.stk[30], t.stk[31])) =
    some (0x345, 32, 0x02, 0x02) := by decide

/-- CF-8. -/
theorem test_call_overflow : after { launch 0x2345 [] with sp := 32 } (fun t => (t.pc, t.sp, t.report)) =
    some (0x200, 32, .fault (.stackOverflow 32)) := by decide

/-- CF-9, CF-10. -/
theorem test_seImm : after (launch 0x3107 [(1, 0x07)]) (fun t => t.pc) = some 0x204 ∧
    after (launch 0x3107 [(1, 0x08)]) (fun t => t.pc) = some 0x202 := by decide

/-- CF-11, CF-12. -/
theorem test_sneImm : after (launch 0x4107 [(1, 0x07)]) (fun t => t.pc) = some 0x202 ∧
    after (launch 0x4107 [(1, 0x08)]) (fun t => t.pc) = some 0x204 := by decide

/-- CF-13, CF-14. -/
theorem test_seReg : after (launch 0x5120 [(1, 9), (2, 9)]) (fun t => t.pc) = some 0x204 ∧
    after (launch 0x5120 [(1, 9), (2, 8)]) (fun t => t.pc) = some 0x202 := by decide

/-- CF-15, CF-16. -/
theorem test_sneReg : after (launch 0x9120 [(1, 9), (2, 9)]) (fun t => t.pc) = some 0x202 ∧
    after (launch 0x9120 [(1, 9), (2, 8)]) (fun t => t.pc) = some 0x204 := by decide

/-- CF-18: not masked to 12 bits. -/
theorem test_jpV0 : after (launch 0xBFFF [(0, 0xFF)]) (fun t => t.pc) = some 0x10FE := by decide

/-- A-1. -/
theorem test_ldImm : after (launch 0x6A2B []) (fun t => t.getV 10) = some 0x2B := by decide

/-- A-2: no carry flag. -/
theorem test_addImm : after (launch 0x7001 [(0, 0xFF), (15, 0x07)]) (fun t => (t.getV 0, t.getV VF)) = some (0x00, 0x07) := by
  decide

/-- A-5. -/
theorem test_ldReg : after (launch 0x8120 [(2, 0x11)]) (fun t => t.getV 1) = some 0x11 := by decide

/-- A-6. -/
theorem test_orReg : after (launch 0x8121 [(1, 0x0C), (2, 0x0A)]) (fun t => t.getV 1) = some 0x0E := by decide

/-- A-7. -/
theorem test_andReg : after (launch 0x8122 [(1, 0x0C), (2, 0x0A)]) (fun t => t.getV 1) = some 0x08 := by decide

/-- A-9. -/
theorem test_xorReg : after (launch 0x8113 [(1, 0x5A), (15, 0x01)]) (fun t => (t.getV 1, t.getV VF)) = some (0x00, 0x01) := by
  decide

/-- L1-1. -/
theorem test_addReg : after (launch 0x8014 [(0, 0xC8), (1, 0x64)]) (fun t => (t.getV 0, t.getV VF, t.pc)) =
    some (0x2C, 0x01, 0x202) := by decide

/-- A-14: the flag overwrites the sum. -/
theorem test_addReg_vf : after (launch 0x8F14 [(15, 0xFF), (1, 0x01)]) (fun t => t.getV VF) = some 0x01 := by decide

/-- L1-2b. -/
theorem test_subReg : after (launch 0x8015 [(0, 3), (1, 5)]) (fun t => (t.getV 0, t.getV VF)) = some (0xFE, 0) := by decide

/-- L1-10: strict comparison. -/
theorem test_subReg_equal : after (launch 0x8015 [(0, 7), (1, 7)]) (fun t => (t.getV 0, t.getV VF)) = some (0, 0) := by decide

/-- A-22: Y ignored. -/
theorem test_shr : after (launch 0x8056 [(0, 3), (5, 0xFF)]) (fun t => (t.getV 0, t.getV 5, t.getV VF)) = some (1, 0xFF, 1) := by
  decide

/-- A-23. -/
theorem test_shr_vf : after (launch 0x8F06 [(15, 0xFF)]) (fun t => t.getV VF) = some 0 := by decide

/-- A-25: the destination is Vy. -/
theorem test_subn : after (launch 0x8107 [(0, 0x64), (1, 0x2C)]) (fun t => (t.getV 0, t.getV 1, t.getV VF)) =
    some (0x38, 0x2C, 1) := by decide

/-- A-29: Y is F. -/
theorem test_subn_vf : after (launch 0x81F7 [(15, 3), (1, 0x0A)]) (fun t => (t.getV 1, t.getV VF)) = some (0x0A, 0) := by decide

/-- A-30. -/
theorem test_shl : after (launch 0x800E [(0, 0xC8)]) (fun t => (t.getV 0, t.getV VF)) = some (0x90, 1) := by decide

/-- A-34. -/
theorem test_shl_vf : after (launch 0x8F0E [(15, 0xFF)]) (fun t => t.getV VF) = some 2 := by decide

/-- A-35. -/
theorem test_rnd : after { launch 0xC30F [] with schedule := [.step { keys := 0, rnd := 0xA5 }] } (fun t => t.getV 3) =
    some 0x05 := by decide

/-- IM-1. -/
theorem test_ldI : after (launch 0xA123 []) (fun t => t.i) = some 0x123 := by decide

/-- IM-3: modulo 2^16, no flag. -/
theorem test_addI : after { launch 0xF01E [(0, 0x20)] with i := 0xFFF0 } (fun t => (t.i, t.getV VF)) = some (0x0010, 0) := by
  decide

/-- IM-6: the whole byte. -/
theorem test_ldF : after (launch 0xF029 [(0, 0xFF)]) (fun t => t.i) = some 0x4FB := by decide

/-- L1-7. -/
theorem test_ldB : after { launch 0xF033 [(0, 234)] with i := 0x300 }
    (fun t => (t.readByte 0x300, t.readByte 0x301, t.readByte 0x302, t.i)) = some (2, 3, 4, 0x300) := by decide

/-- IM-12: nothing is written. -/
theorem test_ldB_outside : after { launch 0xF033 [(0, 1)] with i := 0xFFE }
    (fun t => (t.readByte 0xFFE, t.pc, t.status)) = some (0, 0x200, .halted (.outOfMemory 0x1000)) := by decide

/-- IM-14. -/
theorem test_storeRegs : after { launch 0xF255 [(0, 1), (1, 2), (2, 3), (3, 4)] with i := 0x300 }
    (fun t => (t.readByte 0x300, t.readByte 0x301, t.readByte 0x302, t.readByte 0x303, t.i)) = some (1, 2, 3, 0, 0x303) := by
  decide

/-- IM-17. -/
theorem test_storeRegs_outside : after { launch 0xF155 [(0, 1), (1, 2)] with i := 0xFFF }
    (fun t => (t.readByte 0xFFF, t.i, t.status)) = some (0, 0xFFF, .halted (.outOfMemory 0x1000)) := by decide

/-- IM-18. -/
theorem test_loadRegs : after { (launch 0xF265 [(3, 9)]).storeBytes 0x300 [7, 8, 9, 10] with i := 0x300 }
    (fun t => (t.getV 0, t.getV 1, t.getV 2, t.getV 3, t.i)) = some (7, 8, 9, 9, 0x303) := by decide

/-- IM-20. -/
theorem test_loadRegs_outside : after { launch 0xF065 [] with i := 0x1000 } (fun t => t.report) =
    some (.fault (.outOfMemory 0x1000)) := by decide

/-- D-1, by two pixels. -/
theorem test_cls : after { launch 0x00E0 [] with fb := ((launch 0 []).fb.setPixel 0 0 true).setPixel 63 31 true }
    (fun t => (t.fb.pixel 0 0, t.fb.pixel 63 31, t.dirty)) = some (false, false, true) := by decide

/-- D-10: collision. -/
theorem test_drw : after
    { (launch 0xD011 []).storeBytes 0x300 [0xC0] with i := 0x300, fb := (launch 0 []).fb.setPixel 0 0 true }
    (fun t => (t.fb.pixel 0 0, t.fb.pixel 1 0, t.fb.pixel 2 0, t.getV VF)) = some (false, true, false, 1) := by decide

/-- D-3: horizontal wrap. -/
theorem test_drw_wraps : after { (launch 0xD011 [(0, 62)]).storeBytes 0x300 [0xF0] with i := 0x300 }
    (fun t => (t.fb.pixel 61 0, t.fb.pixel 62 0, t.fb.pixel 63 0, t.fb.pixel 0 0, t.fb.pixel 1 0, t.fb.pixel 2 0)) =
    some (false, true, true, true, true, false) := by decide

/-- TK-1, TK-2. -/
theorem test_skp : after { launch 0xE59E [(5, 3)] with schedule := [.step { keys := 0x0008, rnd := 0 }] } (fun t => t.pc) =
    some 0x204 ∧ after { launch 0xE59E [(5, 3)] with schedule := [.step { keys := 0x0010, rnd := 0 }] } (fun t => t.pc) =
    some 0x202 := by decide

/-- TK-3. -/
theorem test_sknp : after { launch 0xE5A1 [(5, 3)] with schedule := [.step { keys := 0x0008, rnd := 0 }] } (fun t => t.pc) =
    some 0x202 := by decide

/-- TK-5. -/
theorem test_skp_no_key : after (launch 0xE59E [(5, 16)]) (fun t => (t.pc, t.status)) =
    some (0x200, .halted (.keyIndexOutOfRange 16)) := by decide

/-- TK-7. -/
theorem test_ldVxDT : after { launch 0xF307 [] with dt := 0x2A } (fun t => t.getV 3) = some 0x2A := by decide

/-- TK-8. -/
theorem test_ldVxK : after { launch 0xF30A [] with schedule := [.step { keys := 0x0002, rnd := 0 }] }
    (fun t => (t.kw, t.pc, t.getV 3)) = some (some 3, 0x202, 0) := by decide

/-- TK-10. -/
theorem test_ldDTVx : after (launch 0xF315 [(3, 9)]) (fun t => t.dt) = some 9 := by decide

/-- TK-11. -/
theorem test_ldSTVx : after { launch 0xF318 [] with st := 5 } (fun t => t.st) = some 0 := by decide

/-! ### The step itself and the other commands -/

/-- S-1. -/
theorem test_decodeError : after (launch 0x5121 []) (fun t => (t.pc, t.status, t.report)) =
    some (0x202, .running, .decodeError 0x5121 0x200) := by decide

/-- S-8, S-10. -/
theorem test_fetch_outside : after { launch 0 [] with pc := 0xFFF } (fun t => (t.pc, t.status)) =
    some (0xFFF, .halted (.outOfMemory 0x1000)) ∧
    after { launch 0 [] with pc := 0x10FE } (fun t => t.status) = some (.halted (.outOfMemory 0x10FE)) := by decide

/-- S-11: an odd PC. -/
theorem test_fetch_odd : after { (launch 0 []).storeBytes 0x201 [0x60, 0x42] with pc := 0x201 } (fun t => (t.getV 0, t.pc)) =
    some (0x42, 0x203) := by decide

/-- S-12. -/
theorem test_halted_step : after { launch 0x6A2B [] with status := .halted (.stackOverflow 32) }
    (fun t => (t.pc, t.getV 10, t.report)) = some (0x200, 0, .halted (.stackOverflow 32)) := by decide

/-- S-14, S-15. -/
theorem test_keyWait : after { launch 0 [] with kw := some 3 } (fun t => (t.kw, t.pc, t.report)) =
    some (some 3, 0x200, .keyWaiting) ∧
    after { launch 0 [] with kw := some 3, schedule := [.step { keys := 0x0220, rnd := 0 }] }
      (fun t => (t.getV 3, t.kw, t.pc, t.report)) = some (5, none, 0x200, .keyResolved 5) := by decide

/-- S-13, TK-12: timers floored at 0, while halted too. -/
theorem test_tick : after { launch 0 [] with dt := 1, schedule := [.tick], status := .halted (.stackUnderflow 0) }
    (fun t => (t.dt, t.st)) = some (0, 0) := by decide

/-- RL-1, by the first and last byte of FONT and some registers. -/
theorem test_reset_command : after { launch 0x6A2B [(1, 7)] with schedule := [.reset], status := .halted (.stackUnderflow 0) }
    (fun t => (t.readByte 0, t.readByte 0x4F, t.readByte 0x200, t.getV 1, t.pc, t.status)) =
    some (0xF0, 0x80, 0, 0, 0, .running) := by decide

/-- R273: two bytes loaded. -/
theorem test_load : after { State.reset with schedule := [.load [0x12, 0x00]] }
    (fun t => (t.readByte 0x200, t.readByte 0x201, t.pc, t.report)) = some (0x12, 0, 0x200, .loaded) := by decide

theorem test_clearDirty : after { launch 0 [] with dirty := true, schedule := [.clearDirty] } (fun t => t.dirty) =
    some false := by decide

/-- RL-5: a Step before any Load fetches FONT. -/
theorem test_step_before_load : after { State.reset with schedule := [.step { keys := 0, rnd := 0 }] }
    (fun t => (t.pc, t.report)) = some (2, .decodeError 0xF090 0) := by decide

/-- The codes and payloads of R231, row by row, and code 0. -/
theorem test_error_codes : (Report.decodeError 0x5121 0x200).code = 1 ∧
    (Report.decodeError 0x5121 0x200).error.map CoreError.payload = some [0x5121, 0x200] ∧
    (Report.fault (.stackOverflow 32)).code = 2 ∧ (Report.fault (.stackUnderflow 0)).code = 3 ∧
    (Report.halted (.outOfMemory 0x1200)).code = 4 ∧ (Report.loadOutOfMemory 0x1000).code = 4 ∧
    (Report.loadOutOfMemory 0x1000).error.map CoreError.payload = some [0x1000] ∧
    (Report.fault (.keyIndexOutOfRange 16)).code = 5 ∧ Report.executed.code = 0 ∧ Report.loaded.code = 0 ∧
    Status.running.code = 0 ∧ (Status.halted (.keyIndexOutOfRange 16)).code = 5 := by decide

/-- The reset memory is canonical, and a write of the reset contents is not listed. -/
theorem test_memory_canonical : Memory.wf Config.standard State.reset.mem ∧
    (State.reset.storeBytes 0 [0xF0, 0x91]).mem = [(1, 0x91)] ∧
    ((State.reset.storeBytes 0x300 [1]).storeBytes 0x300 [0]).mem = [] := by decide

/-- `withFetchWord`: the word runs as the first instruction after reset. -/
theorem test_withFetchWord : decodeTableWord 16 0x6A2B = some (.ldImm 10 0x2B) ∧ decodeTableWord 16 0x5121 = none ∧
    after (State.reset.withFetchWord 16 0x6A2B) (fun t => (t.getV 10, t.pc, t.report)) = some (0x2B, 2, .executed) := by decide

/-! ### Witnesses: states and operands that meet the hypotheses of the obligations, clause by clause, at the edges -/

/-- A Step without inputs. -/
def noInput : StepInput := { keys := 0, rnd := 0 }

/-- A state with a word at 0x200 and a value of I. -/
def launchI (w : Word) (regs : List (Reg × Byte)) (i : Word) : State := { launch w regs with i := i }

/-- EncodingsAreThoseOfTheRules, DecodeInvertsEncode, EncodeInvertsDecode. -/
theorem witness_encoding : 15 ≤ 15 ∧ (Instr.drw 3 4 15).wellFormed = true ∧ (Instr.drw 3 4 0).wellFormed = true ∧
    decodeWord 0x8FA6 = .ok (.shr 15 10) := by decide

/-- InvalidWordsAreExactlyTheListed: a listed word of each clause. -/
theorem witness_invalidWords : (0x0FFF < 0x1000 ∧ 0x0FFF ≠ 0x00E0 ∧ 0x0FFF ≠ 0x00EE) ∧
    (0x5FF1 / 0x1000 = 0x5 ∧ 0x5FF1 % 0x10 ≠ 0) ∧ (0x800F / 0x1000 = 0x8 ∧ 0x800F % 0x10 ∈ [0x8, 0x9, 0xA, 0xB, 0xC, 0xD, 0xF]) ∧
    (0x900F / 0x1000 = 0x9 ∧ 0x900F % 0x10 ≠ 0) ∧ (0xEFA2 / 0x1000 = 0xE ∧ 0xEFA2 % 0x100 ∉ [0x9E, 0xA1]) ∧
    (0xFF66 / 0x1000 = 0xF ∧ 0xFF66 % 0x100 ∉ [0x07, 0x0A, 0x15, 0x18, 0x1E, 0x29, 0x33, 0x55, 0x65]) := by decide

/-- The valid words next to those. -/
theorem witness_validWords : decodeWord 0x1000 = .ok (.jp 0) ∧ decodeWord 0x5FF0 = .ok (.seReg 15 15) ∧
    decodeWord 0x800E = .ok (.shl 0 0) ∧ decodeWord 0xEFA1 = .ok (.sknp 15) ∧ decodeWord 0xFF65 = .ok (.loadRegs 15) := by decide

/-- StepRunsTheDecodedInstruction: the last word of memory. -/
theorem witness_stepRuns : let s := { (launch 0 []).storeBytes 0xFFE [0x6A, 0x2B] with pc := 0xFFE }
    s.Fetching noInput ∧ decodeWord (joinBytes (s.readByte s.pc.toNat) (s.readByte (s.pc.toNat + 1))) = .ok (.ldImm 10 0x2B) :=
  ⟨⟨rfl, rfl, rfl, by decide⟩, by decide⟩

/-- InvalidWordIsSkippedAndReported. -/
theorem witness_invalidWord : let s := { launch 0 [] with pc := 0xFFE }
    s.Fetching noInput ∧ (0 : Word) = joinBytes (s.readByte s.pc.toNat) (s.readByte (s.pc.toNat + 1)) ∧
      decodeWord 0 = .error (.invalidWord 0) :=
  ⟨⟨rfl, rfl, rfl, by decide⟩, by decide, by decide⟩

/-- FetchOutsideMemoryHalts: the last byte of memory, and the first address beyond. -/
theorem witness_fetchOutside :
    (let s := { launch 0 [] with pc := 0xFFF }
     s.nextCommand = .step noInput ∧ s.status = .running ∧ s.kw = none ∧ s.pc.toNat + 1 ≥ 4096) ∧
    (let s := { launch 0 [] with pc := 0x1000 }
     s.nextCommand = .step noInput ∧ s.status = .running ∧ s.kw = none ∧ s.pc.toNat + 1 ≥ 4096) :=
  ⟨⟨rfl, rfl, rfl, by decide⟩, ⟨rfl, rfl, rfl, by decide⟩⟩

/-- HaltedStepChangesNothing, OnlyResetEndsAHalt. -/
theorem witness_halted : let s := { launch 0 [] with status := .halted (.outOfMemory 0x1000) }
    s.nextCommand = .step noInput ∧ s.nextCommand ≠ .reset ∧
      step s = .next { s with schedule := [], input := noInput, report := .halted (.outOfMemory 0x1000) } :=
  ⟨rfl, by decide, rfl⟩

/-- KeyWaitStoresTheLowestPressedKey: keys 0 and 15 as the lowest, and no key. -/
theorem witness_keyWait :
    (let s := { launch 0 [] with kw := some 15, schedule := [.step { keys := 0x8000, rnd := 0 }] }
     s.nextCommand = .step { keys := 0x8000, rnd := 0 } ∧ s.status = .running ∧ s.kw = some 15) ∧
    ((0x8000 : BitVec 16).getLsbD 15 = true ∧ ∀ j : Reg, j < 15 → (0x8000 : BitVec 16).getLsbD j.val = false) ∧
    ((0xFFFF : BitVec 16).getLsbD 0 = true ∧ ∀ j : Reg, j < 0 → (0xFFFF : BitVec 16).getLsbD j.val = false) ∧
    (∀ k : Reg, (0 : BitVec 16).getLsbD k.val = false) := by decide

/-- ErrorsAreExactlyThoseOfTheTable: each error at its edge, and no error beside it. -/
theorem witness_errors :
    raisedBy { launch 0 [] with sp := 32 } (.call 0) = some (.stackOverflow 32) ∧
    raisedBy { launch 0 [] with sp := 30 } (.call 0) = none ∧
    raisedBy (launch 0 []) .ret = some (.stackUnderflow 0) ∧ raisedBy { launch 0 [] with sp := 2 } .ret = none ∧
    raisedBy (launchI 0 [] 0xFFF) (.drw 0 0 2) = some (.outOfMemory 0x1000) ∧
    raisedBy (launchI 0 [] 0xFFF) (.drw 0 0 1) = none ∧ raisedBy (launchI 0 [] 0x1200) (.drw 0 0 0) = none ∧
    raisedBy (launchI 0 [] 0x1200) (.ldB 0) = some (.outOfMemory 0x1200) ∧ raisedBy (launchI 0 [] 0xFFD) (.ldB 0) = none ∧
    raisedBy (launchI 0 [] 0xFF1) (.storeRegs 15) = some (.outOfMemory 0x1000) ∧
    raisedBy (launchI 0 [] 0xFF0) (.loadRegs 15) = none ∧
    raisedBy (launch 0 [(1, 16)]) (.skp 1) = some (.keyIndexOutOfRange 16) ∧ raisedBy (launch 0 [(1, 15)]) (.sknp 1) = none := by
  decide

/-- A state with one frame on the stack, at a return. -/
def returning : State :=
  { launch 0x00EE [] with sp := 2, stk := (launch 0 []).stk.set 0 0x03 |>.set 1 0x4A }

/-- The premise of the invariant statements, of a state whose frame, memory and schedule are not those of reset. -/
theorem witness_inv : returning.Inv :=
  ⟨by decide, by unfold State.SpLegal; decide,
    fun j h => by
      have h : 2 * j + 2 ≤ 2 := h
      obtain rfl : j = 0 := by omega
      decide,
    by unfold State.PcLegal; decide, fun _ h => nomatch h⟩

/-- EveryStepKeepsTheStateLegal, EveryStepAnswersANextState, ParametersNeverChange: a step from that state. -/
theorem witness_inv_step : ∃ t, step returning = .next t := ⟨_, rfl⟩

/-- ReturnPopsTheTopFrame, CallPushesTheReturnAddress, ReturnGoesBackBehindTheCall, ReturnWithIllegalStackPointerStops and both clauses
of StackErrorsHalt, at the edges of SP. -/
theorem witness_stack : 2 ≤ ({ launch 0 [] with sp := 2 } : State).sp.toNat ∧ ({ launch 0 [] with sp := 32 } : State).sp.toNat ≤ 32 ∧
    ({ launch 0 [] with sp := 30 } : State).sp.toNat + 2 ≤ 32 ∧ ({ launch 0 [] with sp := 33 } : State).sp.toNat > 32 ∧
    ({ launch 0 [] with sp := 31 } : State).sp.toNat + 2 > 32 ∧ ({ launch 0 [] with sp := 1 } : State).sp.toNat < 2 := by decide

/-- ReturnGoesBackBehindTheCall: the state after the call is itself a state with its stack. -/
theorem witness_returnAfterCall : ∃ t, exec (.call 0x345) { launch 0x2345 [] with sp := 30 } = .next t ∧ t.sp = 32 ∧
    ∃ w, exec .ret t = .next w ∧ w.pc = 0x202 ∧ w.sp = 30 := ⟨_, rfl, by decide, _, rfl, by decide, by decide⟩

/-- StoppedStateStaysStopped: at the last word of memory. -/
theorem witness_stopped : let s := { (launch 0 []).storeBytes 0xFFE [0x1F, 0xFE] with pc := 0xFFE }
    s.StoppedAt 0xFFE ∧ s.nextCommand = .step noInput :=
  ⟨⟨rfl, rfl, by decide, by decide, by decide⟩, rfl⟩

/-- SkipsCompareRegisters (its clause on invalid words), and the flag statements (destination VF and not VF). -/
theorem witness_operands : (1 : BitVec 4) ≠ 0 ∧ (15 : BitVec 4) ≠ 0 ∧ (14 : Reg) ≠ VF ∧ (15 : Reg) = VF := by decide

/-- BcdStoresThreeDigits, StoreRegistersFillsMemory, LoadRegistersReadsMemory, LoadAfterStoreGivesTheRegistersBack: the last range that
fits. -/
theorem witness_rangeFits : (launchI 0 [] 0xFFD).i.toNat + 2 < 4096 ∧ (launchI 0 [] 0xFF0).i.toNat + (15 : Reg).val < 4096 ∧
    (launchI 0 [] 0xFFF).i.toNat + (0 : Reg).val < 4096 := by decide

/-- LoadAfterStoreGivesTheRegistersBack: the state after the store with I put back. -/
theorem witness_loadAfterStore : ∃ t, exec (.storeRegs 1) (launchI 0xF155 [(0, 7), (1, 8)] 0xFFE) = .next t ∧
    ∃ w, exec (.loadRegs 1) { t with i := 0xFFE, v := Vector.replicate 16 0 } = .next w ∧ w.getV 0 = 7 ∧ w.getV 1 = 8 :=
  ⟨_, rfl, _, rfl, by decide, by decide⟩

/-- AccessOutsideMemoryHalts: the first ranges that do not fit, for each clause. -/
theorem witness_rangeOutside : 0 < 1 ∧ (launchI 0 [] 0x1000).i.toNat + 1 - 1 ≥ 4096 ∧ (launchI 0 [] 0xFFF).i.toNat + 2 - 1 ≥ 4096 ∧
    (launchI 0 [] 0xFFE).i.toNat + 2 ≥ 4096 ∧ (launchI 0 [] 0xFF1).i.toNat + (15 : Reg).val ≥ 4096 ∧
    (launchI 0 [] 0x1000).i.toNat + (0 : Reg).val ≥ 4096 := by decide

/-- CanonicalMemoriesThatReadAlikeAreEqual. -/
theorem witness_canonical : Memory.wf Config.standard [(0, 0x00), (0xFFF, 0x01)] ∧
    ∀ a, a < 4096 → Memory.read Config.standard [(0, 0x00), (0xFFF, 0x01)] a =
      Memory.read Config.standard [(0, 0x00), (0xFFF, 0x01)] a := ⟨by decide, fun _ _ => rfl⟩

/-- DrawInvertsExactlyTheSprite: the last range that fits, the empty one anywhere, a pixel that the sprite covers across the edge of
the screen and one that it does not cover. -/
theorem witness_draw : (15 ≤ 15 ∧ (launchI 0 [] 0xFF1).i.toNat + 15 ≤ 4096) ∧ (0 ≤ 15 ∧ 0 = 0) ∧
    (let s := (launchI 0 [] 0xFFF).storeBytes 0xFFF [0xC0]
     s.SpriteCovers 63 31 1 0 31 ∧ ¬ s.SpriteCovers 63 31 1 1 31 ∧ s.fb.pixel 0 31 = false ∧
       (State.fb { s with fb := s.fb.setPixel 0 31 true }).pixel 0 31 = true) :=
  ⟨by decide, by decide, ⟨0, 1, by decide, by decide, by decide, by decide, by decide⟩,
    fun ⟨r, c, hr, hc, hx, _, hb⟩ => by
      obtain rfl : r = 0 := by omega
      have hx : 1 = (63 + c) % 64 := hx
      obtain rfl : c = 2 := by omega
      exact absurd hb (by decide),
    by decide, by decide⟩

/-- DrawingTwiceErasesTheSprite: the state after the draw, drawn again, onto a dark place (L1-4a, L1-4b). -/
theorem witness_drawTwice : ∃ t, exec (.drw 0 1 1) ((launchI 0xD011 [] 0x300).storeBytes 0x300 [0xFF]) = .next t ∧
    t.fb.pixel 7 0 = true ∧ t.getV VF = 0 ∧
    ∃ w, exec (.drw 0 1 1) t = .next w ∧ w.fb.pixel 7 0 = false ∧ w.getV VF = 1 :=
  ⟨_, rfl, by decide, by decide, _, rfl, by decide, by decide⟩

/-- KeySkipsTestTheSampledKey and KeyIndexAboveFifteenHalts, on both sides of the edge. -/
theorem witness_keys : ((launch 0 [(5, 15)]).getV 5).toNat ≤ 15 ∧ ((launch 0 [(5, 16)]).getV 5).toNat > 15 := by decide

/-- TickCountsBothTimersDown, DirtyIsClearedByTheConsumer, ResetPutsEverythingAtItsValue and both clauses of
LoadCopiesTheImageOrChangesNothing. -/
theorem witness_commands : ({ launch 0 [] with schedule := [.tick] } : State).nextCommand = .tick ∧
    ({ launch 0 [] with schedule := [.clearDirty] } : State).nextCommand = .clearDirty ∧
    ({ launch 0 [] with schedule := [.reset] } : State).nextCommand = .reset ∧
    (∀ image, ({ launch 0 [] with schedule := [.load image] } : State).nextCommand = .load image) ∧
    (List.replicate 3584 (0xAB : Byte)).length ≤ 3584 ∧ (List.replicate 3585 (0xAB : Byte)).length > 3584 :=
  ⟨rfl, rfl, rfl, fun _ => rfl, Nat.le_of_eq List.length_replicate,
    Nat.lt_of_lt_of_eq (by decide : 3584 < 3585) List.length_replicate.symm⟩

/-- DirtyIsClearedByTheConsumer, its second clause, under both commands. -/
theorem witness_dirty : (∃ t, step { launch 0 [] with dirty := true, schedule := [.clearDirty] } = .next t ∧ t.dirty = false) ∧
    (∃ t, step { launch 0 [] with dirty := true, schedule := [.reset] } = .next t ∧ t.dirty = false) :=
  ⟨⟨_, rfl, rfl⟩, ⟨_, rfl, rfl⟩⟩

/-- TimerTransfers, its clause on ST: an instruction beside FX18. -/
theorem witness_soundTimer : (∃ t, exec (.ldVxDT 3) (launch 0xF307 []) = .next t) ∧ (∀ z, Instr.ldVxDT 3 ≠ .ldSTVx z) :=
  ⟨⟨_, rfl⟩, nofun⟩

/-- OtherInstructionsDoNotReadTheInputs: CXNN with other keys, EX9E with another random byte. -/
theorem witness_inputs : (∃ t, exec (.rnd 3 0x0F) (launch 0xC30F []) = .next t) ∧
    (∃ t, exec (.skp 3) (launch 0xE39E []) = .next t) ∧ (∀ x, Instr.rnd 3 0x0F ≠ .skp x ∧ Instr.rnd 3 0x0F ≠ .sknp x) ∧
    (∀ x nn, Instr.skp 3 ≠ .rnd x nn) :=
  ⟨⟨_, rfl⟩, ⟨_, rfl⟩, fun _ => ⟨nofun, nofun⟩, fun _ _ => nofun⟩

/-- OnlyNamedRegistersAreWritten, EachPieceOfStateHasItsWriters. -/
theorem witness_writers : (∃ t, exec (.subn 1 2) (launch 0x8127 []) = .next t) ∧ writesRegister (.subn 1 2) 1 = false ∧
    (∀ nnn, Instr.subn 1 2 ≠ .call nnn) ∧ Instr.subn 1 2 ≠ .ret ∧ (∀ x, Instr.subn 1 2 ≠ .ldDTVx x) ∧
    (∀ x, Instr.subn 1 2 ≠ .ldSTVx x) ∧ Instr.subn 1 2 ≠ .cls ∧ (∀ x y n, Instr.subn 1 2 ≠ .drw x y n) ∧
    (∀ x, Instr.subn 1 2 ≠ .ldVxK x) ∧ (∀ nnn, Instr.subn 1 2 ≠ .ldI nnn) ∧
    (∀ x, Instr.subn 1 2 ≠ .addI x ∧ Instr.subn 1 2 ≠ .ldF x ∧ Instr.subn 1 2 ≠ .storeRegs x ∧ Instr.subn 1 2 ≠ .loadRegs x) ∧
    (∀ x, Instr.subn 1 2 ≠ .ldB x ∧ Instr.subn 1 2 ≠ .storeRegs x) :=
  ⟨⟨_, rfl⟩, by decide, nofun, nofun, nofun, nofun, nofun, nofun, nofun, nofun, fun _ => ⟨nofun, nofun, nofun, nofun⟩,
    fun _ => ⟨nofun, nofun⟩⟩

end Sys2Proof.Machine.Tests
end

section
/-! PROOF of DecodeIsTheTableScan (30_encoding.md R84 to R86): the row test `w & mask = pattern`, for each mask of the table, as a
test of the fields of w; then the scan and the opcode map agree family by family. -/

namespace Sys2Proof

/-! ### The masks of the table select fields -/

theorem and_F000_eq_wordAddr (w : Word) : w &&& 0xF000 = wordAddr (fieldF w) 0 := by
  rw [← wordAddr_and_F000, wordAddr_fields]

theorem and_F00F_eq_wordRegReg (w : Word) : w &&& 0xF00F = wordRegReg (fieldF w) 0 0 (fieldN w) := by
  rw [← wordRegReg_and_F00F, wordRegReg_fields]

theorem and_F0FF_eq_wordRegByte (w : Word) : w &&& 0xF0FF = wordRegByte (fieldF w) 0 (fieldNN w) := by
  rw [← wordRegByte_and_F0FF, wordRegByte_fields]

section Masks
variable {w p : Word}

theorem and_F000_eq_iff (hp : p &&& 0xF000 = p) : w &&& 0xF000 = p ↔ fieldF w = fieldF p := by
  constructor
  · rintro rfl
    rw [and_F000_eq_wordAddr, fieldF_wordAddr]
  · intro hF
    rw [and_F000_eq_wordAddr, hF, ← and_F000_eq_wordAddr, hp]

theorem and_F00F_eq_iff (hp : p &&& 0xF00F = p) : w &&& 0xF00F = p ↔ fieldF w = fieldF p ∧ fieldN w = fieldN p := by
  constructor
  · rintro rfl
    simp only [and_F00F_eq_wordRegReg, fieldF_wordRegReg, fieldN_wordRegReg, and_self]
  · rintro ⟨hF, hN⟩
    rw [and_F00F_eq_wordRegReg, hF, hN, ← and_F00F_eq_wordRegReg, hp]

theorem and_F0FF_eq_iff (hp : p &&& 0xF0FF = p) : w &&& 0xF0FF = p ↔ fieldF w = fieldF p ∧ fieldNN w = fieldNN p := by
  constructor
  · rintro rfl
    simp only [and_F0FF_eq_wordRegByte, fieldF_wordRegByte, fieldNN_wordRegByte, and_self]
  · rintro ⟨hF, hNN⟩
    rw [and_F0FF_eq_wordRegByte, hF, hNN, ← and_F0FF_eq_wordRegByte, hp]

/-- F is named beside the whole word so that a word of another family is seen not to match by its F alone. -/
theorem and_FFFF_eq_iff : w &&& 0xFFFF = p ↔ fieldF w = fieldF p ∧ w = p := by
  have hw : w &&& 0xFFFF = w := BitVec.and_allOnes
  rw [hw]
  exact ⟨fun h => ⟨congrArg fieldF h, h⟩, And.right⟩

end Masks

/-! ### The row test on fields

The fields of the pattern are written as slices, which `simp` evaluates on the literals of the table, while those of w keep their
names. `hp` says that the pattern has no bit outside its mask. -/

section RowTest
variable {p : Word} (w : Word) (read : Word → Instr)

@[simp] theorem OpcodeRow.matches_F000 (hp : p &&& 0xF000#16 = p) :
    OpcodeRow.matches ⟨p, 0xF000#16, read⟩ w = decide (fieldF w = p.extractLsb' 12 4) :=
  (beq_eq_decide ..).trans (decide_eq_decide.mpr (and_F000_eq_iff hp))

@[simp] theorem OpcodeRow.matches_F00F (hp : p &&& 0xF00F#16 = p) :
    OpcodeRow.matches ⟨p, 0xF00F#16, read⟩ w = decide (fieldF w = p.extractLsb' 12 4 ∧ fieldN w = p.extractLsb' 0 4) :=
  (beq_eq_decide ..).trans (decide_eq_decide.mpr (and_F00F_eq_iff hp))

@[simp] theorem OpcodeRow.matches_F0FF (hp : p &&& 0xF0FF#16 = p) :
    OpcodeRow.matches ⟨p, 0xF0FF#16, read⟩ w = decide (fieldF w = p.extractLsb' 12 4 ∧ fieldNN w = p.extractLsb' 0 8) :=
  (beq_eq_decide ..).trans (decide_eq_decide.mpr (and_F0FF_eq_iff hp))

@[simp] theorem OpcodeRow.matches_FFFF :
    OpcodeRow.matches ⟨p, 0xFFFF#16, read⟩ w = decide (fieldF w = p.extractLsb' 12 4 ∧ w = p) :=
  (beq_eq_decide ..).trans (decide_eq_decide.mpr and_FFFF_eq_iff)

end RowTest

/-! ### The scan, family by family -/

section Families
variable {w : Word}

theorem decodeByTable_family0 (hF : fieldF w = 0x0#4) : decodeByTable w =
    if w = 0x00E0#16 then .ok .cls else if w = 0x00EE#16 then .ok .ret else .error (.invalidWord w) := by
  split_ifs with hcls hret
  · subst hcls
    rfl
  · subst hret
    rfl
  · simp [decodeByTable, opcodeTable, hF, hcls, hret]

theorem decodeByTable_family5 (hF : fieldF w = 0x5#4) : decodeByTable w =
    if fieldN w = 0x0#4 then .ok (.seReg (fieldX w) (fieldY w)) else .error (.invalidWord w) := by
  split_ifs with hN <;> simp [decodeByTable, opcodeTable, hF, hN]

theorem decodeByTable_family8 (hF : fieldF w = 0x8#4) : decodeByTable w = decodeFamily8 w := by
  unfold decodeFamily8
  split <;> rename_i hN
  case h_10 => simp_all [decodeByTable, opcodeTable]   -- N selects no row
  all_goals simp [decodeByTable, opcodeTable, hF, hN]

theorem decodeByTable_family9 (hF : fieldF w = 0x9#4) : decodeByTable w =
    if fieldN w = 0x0#4 then .ok (.sneReg (fieldX w) (fieldY w)) else .error (.invalidWord w) := by
  split_ifs with hN <;> simp [decodeByTable, opcodeTable, hF, hN]

theorem decodeByTable_familyE (hF : fieldF w = 0xE#4) : decodeByTable w = decodeFamilyE w := by
  unfold decodeFamilyE
  split <;> rename_i hNN
  case h_3 => simp_all [decodeByTable, opcodeTable]   -- NN selects no row
  all_goals simp [decodeByTable, opcodeTable, hF, hNN]

theorem decodeByTable_familyF (hF : fieldF w = 0xF#4) : decodeByTable w = decodeFamilyF w := by
  unfold decodeFamilyF
  split <;> rename_i hNN
  case h_10 => simp_all [decodeByTable, opcodeTable]   -- NN selects no row
  all_goals simp [decodeByTable, opcodeTable, hF, hNN]

end Families

/-- Settles O5: by the opcode family F of the word. A family whose row tests F alone is read off the table; the others have their
lemma above. -/
theorem decodeIsTheTableScan : Obligations.DecodeIsTheTableScan := by
  intro w
  unfold decodeWord
  split <;> rename_i hF
  case h_1 => exact (decodeByTable_family0 hF).symm
  case h_6 => exact (decodeByTable_family5 hF).symm
  case h_9 => exact (decodeByTable_family8 hF).symm
  case h_10 => exact (decodeByTable_family9 hF).symm
  case h_15 => exact (decodeByTable_familyE hF).symm
  case h_16 => exact (decodeByTable_familyF hF).symm
  case h_17 => simp_all [decodeByTable, opcodeTable]   -- F selects no row
  all_goals simp [decodeByTable, opcodeTable, hF]

end Sys2Proof
end

section
/-! PROOF of SkipsCompareWithImmediate and SkipsCompareRegisters (41_control_flow.md R124 to R127): an instruction has exactly the
word that the encoder gives it, and the four skips are one shape with four conditions. -/

namespace Sys2Proof

/-! ### A word built from its own fields -/

section OwnFields
variable {w : Word} {f n : BitVec 4} {nn : Byte}

theorem wordAddr_of_fields (hF : fieldF w = f) : wordAddr f (fieldNNN w) = w := by
  rw [← hF, wordAddr_fields]

theorem wordRegByte_of_fields (hF : fieldF w = f) (hNN : fieldNN w = nn) : wordRegByte f (fieldX w) nn = w := by
  rw [← hF, ← hNN, wordRegByte_fields]

theorem wordRegReg_of_fields (hF : fieldF w = f) (hN : fieldN w = n) : wordRegReg f (fieldX w) (fieldY w) n = w := by
  rw [← hF, ← hN, wordRegReg_fields]

end OwnFields

/-! ### The word of an instruction

A word that decodes to an instruction is the encoder's word, family by family (R84); the encoder's word decodes to the instruction.
So an instruction has exactly one word. -/

section WordOf
variable {w : Word} {i : Instr}

theorem encode_of_decodeFamily8 (hF : fieldF w = 0x8#4) (h : decodeFamily8 w = .ok i) : encode i = w := by
  unfold decodeFamily8 at h
  split at h <;> rename_i hN <;> cases h
  all_goals exact wordRegReg_of_fields hF hN

theorem encode_of_decodeFamilyE (hF : fieldF w = 0xE#4) (h : decodeFamilyE w = .ok i) : encode i = w := by
  unfold decodeFamilyE at h
  split at h <;> rename_i hNN <;> cases h
  all_goals exact wordRegByte_of_fields hF hNN

theorem encode_of_decodeFamilyF (hF : fieldF w = 0xF#4) (h : decodeFamilyF w = .ok i) : encode i = w := by
  unfold decodeFamilyF at h
  split at h <;> rename_i hNN <;> cases h
  all_goals exact wordRegByte_of_fields hF hNN

theorem encode_of_decodeWord (h : decodeWord w = .ok i) : encode i = w := by
  unfold decodeWord at h
  split at h <;> rename_i hF
  case h_1 =>   -- family 0: two single words
    split_ifs at h with hcls hret <;> cases h
    · exact hcls.symm
    · exact hret.symm
  case h_9 => exact encode_of_decodeFamily8 hF h
  case h_15 => exact encode_of_decodeFamilyE hF h
  case h_16 => exact encode_of_decodeFamilyF hF h
  case h_6 | h_10 =>   -- 5XY0 and 9XY0
    split_ifs at h with hN
    cases h
    exact wordRegReg_of_fields hF hN
  all_goals cases h
  case h_2 | h_3 | h_11 | h_12 => exact wordAddr_of_fields hF
  case h_4 | h_5 | h_7 | h_8 | h_13 => exact wordRegByte_of_fields hF rfl
  case h_14 => exact wordRegReg_of_fields hF (by simp)   -- N of DXYN is held as a number

theorem decodeWord_encode (h : i.wellFormed = true) : decodeWord (encode i) = .ok i := by
  cases i
  case cls | ret => rfl
  case drw x y n =>
    have hn : n ≤ 15 := by simpa [Instr.wellFormed] using h
    simp [encode, decodeWord, Nat.mod_eq_of_lt (show n < 16 by omega)]
  all_goals simp [encode, decodeWord, decodeFamily8, decodeFamilyE, decodeFamilyF]

theorem decodeWord_eq_ok_iff (h : i.wellFormed = true) : decodeWord w = .ok i ↔ w = encode i :=
  ⟨fun hw => (encode_of_decodeWord hw).symm, fun hw => hw ▸ decodeWord_encode h⟩

end WordOf

/-- In families 5 and 9 only N = 0 is an instruction (R87). -/
theorem decodeWord_wordRegReg_invalid {f n : BitVec 4} (hf : f = 0x5 ∨ f = 0x9) (hn : n ≠ 0) (x y : Reg) :
    decodeWord (wordRegReg f x y n) = .error (.invalidWord (wordRegReg f x y n)) := by
  have hn : n ≠ 0#4 := hn
  obtain rfl | rfl := hf
  · simp [decodeWord, hn]
  · simp [decodeWord, hn]

namespace Machine

/-- An "Encoding" line holds when it is the encoder's word as a number. -/
theorem isTheWordOf_of_toNat_encode {i : Instr} {n : Nat} (hi : i.wellFormed = true) (hn : (encode i).toNat = n) :
    IsTheWordOf n i := by
  intro w
  rw [decodeWord_eq_ok_iff hi, ← hn, BitVec.toNat_inj]

/-! ### The four skips -/

/-- The skip of R120 adds 2 to the PC that the fetch has already advanced. -/
theorem executes_skipIf {i : Instr} {s : State} {b : Bool} {P : Prop} [Decidable P]
    (hi : exec i s = (s.advance.skipIf b).complete) (hb : b = true ↔ P) :
    Executes i s {} fun t => t.pc = if P then s.pc + 4 else s.pc + 2 := by
  refine ⟨_, hi, rfl, Keeps.of_pc_report {} rfl, ?_⟩
  have h4 : s.pc + 2 + 2 = s.pc + 4 := BitVec.add_assoc ..
  simp only [State.skipIf_pc, State.advance_pc, hb, h4]

/-! ### The two statements -/

/-- Settles O25: each skip is `executes_skipIf` with its condition, each word the encoder's as a number. -/
theorem skipsCompareWithImmediate : Obligations.SkipsCompareWithImmediate := by
  intro s x nn
  refine ⟨?_, ?_, ?_, ?_⟩
  · exact executes_skipIf rfl beq_iff_eq
  · exact executes_skipIf rfl bne_iff_ne
  · exact isTheWordOf_of_toNat_encode rfl (toNat_wordRegByte 0x3 x nn)
  · exact isTheWordOf_of_toNat_encode rfl (toNat_wordRegByte 0x4 x nn)

/-- Settles O26: as O25, and the words with N other than 0 are invalid. -/
theorem skipsCompareRegisters : Obligations.SkipsCompareRegisters := by
  intro s x y
  refine ⟨?_, ?_, ?_, ?_, fun n hn => ⟨?_, ?_⟩⟩
  · exact executes_skipIf rfl beq_iff_eq
  · exact executes_skipIf rfl bne_iff_ne
  · exact isTheWordOf_of_toNat_encode rfl (toNat_wordRegReg 0x5 x y 0x0)
  · exact isTheWordOf_of_toNat_encode rfl (toNat_wordRegReg 0x9 x y 0x0)
  · exact decodeWord_wordRegReg_invalid (.inl rfl) hn x y
  · exact decodeWord_wordRegReg_invalid (.inr rfl) hn x y

end Machine
end Sys2Proof
end

section
/-! PROOF of RegisterLoadsWriteVx (42_register_alu.md R140, R142): an instruction that advances PC and writes one register, then its
two loads. -/

namespace Sys2Proof.Machine

/-- The shape of an instruction with one destination register and no flag: it writes V[X] and nothing else. -/
theorem executes_setV {i : Instr} {s : State} {x : Reg} {b : Byte} (hi : exec i s = (s.advance.setV x b).complete) :
    Executes i s { regs := [x] } fun t => t.getV x = b ∧ t.pc = s.pc + 2 := by
  have hframe : ∀ r, r ∉ [x] → (s.advance.setV x b).getV r = s.getV r := fun r hr =>
    State.getV_setV_other s.advance b (List.ne_of_not_mem_cons hr)
  exact ⟨_, hi, rfl, Keeps.of_registers rfl hframe, State.getV_setV_same s.advance x b, rfl⟩

/-- Settles O28: both loads are `executes_setV` with their byte, each word the encoder's as a number. -/
theorem registerLoadsWriteVx : Obligations.RegisterLoadsWriteVx := by
  intro s x y nn
  refine ⟨?_, ?_, ?_, ?_⟩
  · exact executes_setV rfl
  · exact executes_setV rfl
  · exact isTheWordOf_of_toNat_encode rfl (toNat_wordRegByte 0x6 x nn)
  · exact isTheWordOf_of_toNat_encode rfl (toNat_wordRegReg 0x8 x y 0x0)

end Sys2Proof.Machine
end

section
/-! PROOF of LoadIndexSetsI (43_index_memory.md R170): an instruction that advances PC and writes I, then ANNN. -/

namespace Sys2Proof.Machine

/-- A state that differs in I, PC and the report only keeps everything but I. -/
theorem Keeps.of_index {f : Footprint} {s t : State} (hf : f.index = true)
    (h : t = { s with i := t.i, pc := t.pc, report := t.report }) : Keeps f s t := by
  rw [h]
  constructor
  case index => intro hkept; simp [hf] at hkept
  case stack | screen => exact fun _ => ⟨rfl, rfl⟩
  case schedule => exact ⟨rfl, rfl⟩
  all_goals intros; rfl

/-- The shape of an instruction whose destination is I: it writes I and nothing else. -/
theorem executes_setIndex {i : Instr} {s : State} {a : Word}
    (hi : exec i s = State.complete { s.advance with i := a }) :
    Executes i s { index := true } fun t => t.i = a ∧ t.pc = s.pc + 2 :=
  ⟨_, hi, rfl, Keeps.of_index rfl rfl, rfl, rfl⟩

/-- What follows from a postcondition holds as well. -/
theorem Executes.imp {i : Instr} {s : State} {f : Footprint} {P Q : State → Prop} (h : Executes i s f P)
    (hPQ : ∀ t, P t → Q t) : Executes i s f Q := by
  obtain ⟨t, hnext, hreport, hkeeps, hpost⟩ := h
  exact ⟨t, hnext, hreport, hkeeps, hPQ t hpost⟩

/-- Settles O37: `executes_setIndex` with the widened NNN, whose value is that of NNN, and the word the encoder's as a number. -/
theorem loadIndexSetsI : Obligations.LoadIndexSetsI := by
  intro s nnn
  refine ⟨(executes_setIndex rfl).imp fun t ⟨hindex, hpc⟩ => ?_, ?_⟩
  · have hvalue : t.i.toNat = nnn.toNat := by rw [hindex, toNat_zextAddr]
    exact ⟨hvalue, by omega, hpc⟩
  · exact isTheWordOf_of_toNat_encode rfl (toNat_wordAddr 0xA nnn)

end Sys2Proof.Machine
end

section
/-! PROOF of ClearScreenClearsAndMarksDirty (44_display.md R190): an instruction that advances PC and writes a frame buffer with
DIRTY, then 00E0. -/

namespace Sys2Proof.Machine

/-- A state that differs in the frame buffer, DIRTY, PC and the report only keeps everything but the screen. -/
theorem Keeps.of_screen {f : Footprint} {s t : State} (hf : f.screen = true)
    (h : t = { s with fb := t.fb, dirty := t.dirty, pc := t.pc, report := t.report }) : Keeps f s t := by
  rw [h]
  constructor
  case screen => intro hkept; simp [hf] at hkept
  case stack => exact fun _ => ⟨rfl, rfl⟩
  case schedule => exact ⟨rfl, rfl⟩
  all_goals intros; rfl

/-- The shape of an instruction that replaces the frame buffer: it marks it dirty and writes nothing else. -/
theorem executes_setScreen {i : Instr} {s : State} {fb : FrameBuffer}
    (hi : exec i s = State.complete { s.advance with fb := fb, dirty := true }) :
    Executes i s { screen := true } fun t => t.fb = fb ∧ t.dirty = true ∧ t.pc = s.pc + 2 :=
  ⟨_, hi, rfl, Keeps.of_screen rfl rfl, rfl, rfl, rfl⟩

/-- Settles O46: `executes_setScreen` with the cleared frame buffer, no pixel of which is lit, and the word the encoder's as a
number. -/
theorem clearScreenClearsAndMarksDirty : Obligations.ClearScreenClearsAndMarksDirty := by
  intro s
  refine ⟨(executes_setScreen rfl).imp fun t ⟨hfb, hdirty, hpc⟩ => ⟨fun px py => ?_, hdirty, hpc⟩, ?_⟩
  · rw [hfb, FrameBuffer.pixel_clear]
  · exact isTheWordOf_of_toNat_encode rfl rfl

end Sys2Proof.Machine
end

section
/-! PROOF of TimerTransfers (45_timers_keys.md R212, R214, R215): an instruction that advances PC and writes one timer, and the sound
timer as a value that `exec` carries along without reading it. -/

namespace Sys2Proof.Machine

/-! ### What the transfers write, and their words -/

/-- A state that differs in a timer of the footprint, PC and the report only keeps everything but that timer. -/
theorem Keeps.of_timers {f : Footprint} {s t : State}
    (h : t = { s with dt := t.dt, st := t.st, pc := t.pc, report := t.report })
    (hdelay : f.delay = false → t.dt = s.dt) (hsound : f.sound = false → t.st = s.st) : Keeps f s t := by
  constructor
  case delay => exact hdelay
  case sound => exact hsound
  all_goals rw [h]
  case stack | screen => exact fun _ => ⟨rfl, rfl⟩
  case schedule => exact ⟨rfl, rfl⟩
  all_goals intros; rfl

/-- The shape of an instruction whose destination is DT. -/
theorem executes_setDelay {i : Instr} {s : State} {b : Byte} (hi : exec i s = State.complete { s.advance with dt := b }) :
    Executes i s { delay := true } fun t => t.dt = b ∧ t.pc = s.pc + 2 :=
  ⟨_, hi, rfl, Keeps.of_timers rfl nofun (fun _ => rfl), rfl, rfl⟩

/-- The shape of an instruction whose destination is ST. -/
theorem executes_setSound {i : Instr} {s : State} {b : Byte} (hi : exec i s = State.complete { s.advance with st := b }) :
    Executes i s { sound := true } fun t => t.st = b ∧ t.pc = s.pc + 2 :=
  ⟨_, hi, rfl, Keeps.of_timers rfl (fun _ => rfl) nofun, rfl, rfl⟩

/-- An "Encoding" line of family F: the pattern 0xF0NN with X in its place. -/
theorem isTheWordOf_familyF {i : Instr} {x : Reg} {nn : Byte} (hi : i.wellFormed = true)
    (henc : encode i = wordRegByte 0xF x nn) : IsTheWordOf (0xF000 + nn.toNat + x.val * 0x100) i := by
  refine isTheWordOf_of_toNat_encode hi ?_
  have hF : (0xF : BitVec 4).toNat = 15 := rfl
  rw [henc, toNat_wordRegByte, hF]
  omega

/-! ### No instruction reads ST -/

/-- The outcome with ST of its next state, if there is one, replaced by `b`. -/
def withSound (b : Byte) : Host.Outcome State Fault Refusal → Host.Outcome State Fault Refusal
  | .next t => .next { t with st := b }
  | .fault r => .fault r
  | .refused r => .refused r

/-! What 00EE does, by the three ranges of SP (R121, R33; R26 rules out the second). -/

theorem execRet_underflow {s : State} (h : s.sp.toNat < 2) : execRet s = s.raiseError (.stackUnderflow s.sp) := by
  rw [execRet, State.pop_eq_underflow h]

theorem execRet_outsideBuffer {s : State} (h : stackBytes < s.sp.toNat) :
    execRet s = .fault .stackPointerOutsideBuffer := by
  rw [execRet, State.pop_eq_outsideBuffer h]

theorem execRet_value {s : State} (h2 : 2 ≤ s.sp.toNat) (h32 : s.sp.toNat ≤ stackBytes) :
    execRet s = State.complete
      { s with
        pc := joinBytes ((s.stk[s.sp.toNat - 2]?).getD 0) ((s.stk[s.sp.toNat - 1]?).getD 0), sp := s.sp - 2 } := by
  rw [execRet, State.pop_eq_value h2 h32]

section CarriedSound
variable (s : State) (b : Byte)

theorem execRet_withSound : execRet { s with st := b } = withSound b (execRet s) := by
  rcases Nat.lt_or_ge s.sp.toNat 2 with h2 | h2
  · rw [execRet_underflow h2]
    exact execRet_underflow h2
  · rcases Nat.lt_or_ge stackBytes s.sp.toNat with h32 | h32
    · rw [execRet_outsideBuffer h32]
      exact execRet_outsideBuffer h32
    · rw [execRet_value h2 h32]
      exact execRet_value h2 h32

/-- Push fails or succeeds by SP alone. -/
theorem execCall_withSound (nnn : BitVec 12) : execCall nnn { s with st := b } = withSound b (execCall nnn s) := by
  simp only [execCall, State.push]
  split_ifs <;> rfl

/-- The key test looks at V[X] and the sample only. -/
theorem skipOnKey_withSound (x : Reg) (want : Bool) :
    State.skipOnKey { s with st := b } x want = withSound b (s.skipOnKey x want) := by
  have hkey : State.getV { s with st := b } x = s.getV x := rfl
  simp only [State.skipOnKey, hkey]
  split_ifs <;> rfl

/-- The instructions that look at memory take the same branch of the range check, which is on I and a length; those with no branch
carry ST along as they stand. -/
theorem exec_withSound {i : Instr} (hi : ∀ z, i ≠ .ldSTVx z) : exec i { s with st := b } = withSound b (exec i s) := by
  cases i
  case ldSTVx z => exact absurd rfl (hi z)
  case ret => exact execRet_withSound s b
  case call nnn => exact execCall_withSound s b nnn
  case skp x => exact skipOnKey_withSound s b x true
  case sknp x => exact skipOnKey_withSound s b x false
  case drw x y n =>
    simp only [exec, execDrw]
    cases outOfRange s.i.toNat n <;> rfl
  case ldB x =>
    simp only [exec, execLdB]
    cases outOfRange s.i.toNat 3 <;> rfl
  case storeRegs x =>
    simp only [exec, execStoreRegs]
    cases outOfRange s.i.toNat (regCount x) <;> rfl
  case loadRegs x =>
    simp only [exec, execLoadRegs]
    cases outOfRange s.i.toNat (regCount x) <;> rfl
  all_goals rfl

end CarriedSound

/-- Settles O49: each transfer is the shape of its destination, each word the encoder's as a number; ST is not read by
`exec_withSound`, and FX18 puts V[X] over it. -/
theorem timerTransfers : Obligations.TimerTransfers := by
  intro s x
  refine ⟨?_, ?_, ?_, ?_, ?_, ?_, fun i t b hnext hi => ?_, fun b => ?_⟩
  · exact executes_setV rfl
  · exact executes_setDelay rfl
  · exact executes_setSound rfl
  · exact isTheWordOf_familyF (nn := 0x07) rfl rfl
  · exact isTheWordOf_familyF (nn := 0x15) rfl rfl
  · exact isTheWordOf_familyF (nn := 0x18) rfl rfl
  · rw [exec_withSound s b hi, hnext, withSound]
  · rfl

end Sys2Proof.Machine
end

section
/-! PROOF of DirtyIsClearedByTheConsumer (60_exceptions.md R254): an outcome that leaves DIRTY on, for every instruction, then for
every command but the two that may turn it off. -/

namespace Sys2Proof.Machine

/-- The outcome does not turn DIRTY off: where it was on in `s`, it is on in the next state, if there is one. -/
def KeepsDirtyOn (s : State) : Host.Outcome State Fault Refusal → Prop
  | .next t => s.dirty = true → t.dirty = true
  | .fault _ | .refused _ => True

/-! ### How an instruction can end -/

section Outcomes
variable {s t : State}

theorem KeepsDirtyOn.of_next {o : Host.Outcome State Fault Refusal} (h : KeepsDirtyOn s o) (hnext : o = .next t)
    (hs : s.dirty = true) : t.dirty = true := by
  subst hnext
  exact h hs

theorem keepsDirtyOn_next_of_eq (h : t.dirty = s.dirty) : KeepsDirtyOn s (.next t) := fun hs => h.trans hs

theorem keepsDirtyOn_complete_of_eq (h : t.dirty = s.dirty) : KeepsDirtyOn s t.complete := fun hs => h.trans hs

theorem keepsDirtyOn_complete_of_marked (h : t.dirty = true) : KeepsDirtyOn s t.complete := fun _ => h

/-- An error entry changes nothing but STATUS and the report (R235). -/
theorem keepsDirtyOn_raiseError (s : State) (e : HaltError) : KeepsDirtyOn s (s.raiseError e) := id

end Outcomes

/-! ### The instructions -/

section Instructions
variable (s : State)

theorem execRet_keepsDirtyOn : KeepsDirtyOn s (execRet s) := by
  rcases Nat.lt_or_ge s.sp.toNat 2 with h2 | h2
  · rw [execRet_underflow h2]
    exact keepsDirtyOn_raiseError s _
  · rcases Nat.lt_or_ge stackBytes s.sp.toNat with h32 | h32
    · rw [execRet_outsideBuffer h32]
      exact trivial
    · rw [execRet_value h2 h32]
      exact keepsDirtyOn_complete_of_eq rfl

theorem execCall_keepsDirtyOn (nnn : BitVec 12) : KeepsDirtyOn s (execCall nnn s) := by
  unfold execCall
  split
  next t hpush =>
    obtain ⟨-, rfl⟩ := State.push_eq_some.1 hpush
    exact keepsDirtyOn_complete_of_eq rfl
  next => exact keepsDirtyOn_raiseError s _

theorem skipOnKey_keepsDirtyOn (x : Reg) (want : Bool) : KeepsDirtyOn s (s.skipOnKey x want) := by
  unfold State.skipOnKey
  split
  · exact keepsDirtyOn_complete_of_eq rfl
  · exact keepsDirtyOn_raiseError s _

/-- 00E0 and DXYN turn DIRTY on; every other instruction leaves it as it is, and so does an error. -/
theorem exec_keepsDirtyOn (i : Instr) : KeepsDirtyOn s (exec i s) := by
  cases i
  case cls => exact keepsDirtyOn_complete_of_marked rfl
  case ret => exact execRet_keepsDirtyOn s
  case call nnn => exact execCall_keepsDirtyOn s nnn
  case skp x => exact skipOnKey_keepsDirtyOn s x true
  case sknp x => exact skipOnKey_keepsDirtyOn s x false
  case drw =>
    simp only [exec, execDrw]
    split
    · exact keepsDirtyOn_raiseError s _
    · exact keepsDirtyOn_complete_of_marked rfl
  case ldB | storeRegs | loadRegs =>
    simp only [exec, execLdB, execStoreRegs, execLoadRegs]
    split
    · exact keepsDirtyOn_raiseError s _
    · exact keepsDirtyOn_complete_of_eq rfl
  all_goals exact keepsDirtyOn_complete_of_eq rfl

end Instructions

/-! ### The commands -/

section Commands
variable (s : State)

theorem fetchExecute_keepsDirtyOn : KeepsDirtyOn s s.fetchExecute := by
  unfold State.fetchExecute
  split
  · exact keepsDirtyOn_raiseError s _
  · split
    · exact exec_keepsDirtyOn s _
    · exact keepsDirtyOn_next_of_eq (State.skipInvalid_dirty s _)

theorem State.keyWaitStep_dirty (r : Reg) : (s.keyWaitStep r).dirty = s.dirty := by
  unfold State.keyWaitStep
  split <;> rfl

theorem stepCommand_keepsDirtyOn : KeepsDirtyOn s s.stepCommand := by
  cases hs : s.status with
  | halted e =>
    rw [State.stepCommand_halted hs]
    exact keepsDirtyOn_next_of_eq rfl
  | running =>
    cases hk : s.kw with
    | some r =>
      rw [State.stepCommand_waiting hs hk]
      exact keepsDirtyOn_next_of_eq (s.keyWaitStep_dirty r)
    | none =>
      rw [State.stepCommand_fetching hs hk]
      exact fetchExecute_keepsDirtyOn s

theorem State.load_dirty (image : List Byte) : (s.load image).dirty = s.dirty := by
  unfold State.load
  split <;> rfl

theorem runCommand_keepsDirtyOn {c : Command} (hclear : c ≠ .clearDirty) (hreset : c ≠ .reset) :
    KeepsDirtyOn s (s.runCommand c) := by
  cases c with
  | reset => exact absurd rfl hreset
  | load image => exact keepsDirtyOn_next_of_eq (s.load_dirty image)
  | step input => exact stepCommand_keepsDirtyOn (s.sample input)
  | tick => exact keepsDirtyOn_next_of_eq s.tick_dirty
  | clearDirty => exact absurd rfl hclear

end Commands

/-- Settles O54: ClearDirty by its definition, and a command that turns DIRTY off is not one of those of
`runCommand_keepsDirtyOn`. -/
theorem dirtyIsClearedByTheConsumer : Obligations.DirtyIsClearedByTheConsumer := by
  intro s
  refine ⟨fun hclear => ?_, fun t hnext hs ht => ?_⟩
  · rw [step_of_nextCommand hclear]
    rfl
  · by_contra hother
    obtain ⟨hclear, hreset⟩ := not_or.1 hother
    rw [step_of_nextCommand rfl] at hnext
    have hon : t.dirty = true := (runCommand_keepsDirtyOn s.afterTaking hclear hreset).of_next hnext hs
    exact absurd (ht.symm.trans hon) Bool.false_ne_true

end Sys2Proof.Machine
end

section
/-! PROOF of DecodeInvertsEncode, EncodeInvertsDecode, EncodingsAreThoseOfTheRules, InvalidWordsAreExactlyTheListed and
DecodeOfWrittenWords (30_encoding.md R81 to R88): what is decoded is well formed, the encoder's words and the fields as numbers. -/

namespace Sys2Proof

/-- Settles O3: the model's decoder on the encoder's words, instruction by instruction. -/
theorem decodeInvertsEncode : Obligations.DecodeInvertsEncode :=
  fun _ => decodeWord_encode

/-- N of a decoded DXYN is a field of four bits; no other operand can leave its field. -/
theorem wellFormed_of_decodeWord {w : Word} {i : Instr} (h : decodeWord w = .ok i) : i.wellFormed = true := by
  have hw : encode i = w := encode_of_decodeWord h
  cases i
  case drw x y n =>
    rw [← hw] at h
    have hn : n % 16 = n := by simpa [encode, decodeWord] using h
    have hle : n ≤ 15 := by omega
    simpa [Instr.wellFormed] using hle
  all_goals rfl

/-- Settles O4: the word is the encoder's, and N of a decoded DXYN is below 16. -/
theorem encodeInvertsDecode : Obligations.EncodeInvertsDecode :=
  fun _ _ h => ⟨encode_of_decodeWord h, wellFormed_of_decodeWord h⟩

/-! ### The "Encoding" lines: the constant bits first, then the operands -/

section EncodingLines
variable (f n : BitVec 4) (x y : Reg) (nn : Byte)

theorem toNat_wordRegReg_pattern :
    (wordRegReg f x y n).toNat = f.toNat * 0x1000 + n.toNat + x.val * 0x100 + y.val * 0x10 := by
  rw [toNat_wordRegReg]
  omega

theorem toNat_wordRegByte_pattern :
    (wordRegByte f x nn).toNat = f.toNat * 0x1000 + nn.toNat + x.val * 0x100 := by
  rw [toNat_wordRegByte]
  omega

end EncodingLines

/-- N of DXYN is held as a number, of which the word keeps four bits. -/
theorem toNat_encode_drw (x y : Reg) {n : Nat} (hn : n ≤ 15) :
    (encode (.drw x y n)).toNat = 0xD000 + x.val * 0x100 + y.val * 0x10 + n := by
  have h4 : (BitVec.ofNat 4 n).toNat = n := by
    rw [BitVec.toNat_ofNat]
    omega
  rw [encode, toNat_wordRegReg, h4]
  rfl

/-- Settles O2: each word is that of its format, as a number. -/
theorem encodingsAreThoseOfTheRules : Obligations.EncodingsAreThoseOfTheRules := by
  intro x y nn nnn n hn
  have hAddr (f : BitVec 4) := toNat_wordAddr f nnn
  have hByte (f : BitVec 4) := toNat_wordRegByte f x nn
  have hReg (f k : BitVec 4) := toNat_wordRegReg_pattern f k x y
  have hSub (f : BitVec 4) (k : Byte) := toNat_wordRegByte_pattern f x k
  exact ⟨rfl, rfl, hAddr 0x1, hAddr 0x2, hAddr 0xA, hAddr 0xB,
    hByte 0x3, hByte 0x4, hByte 0x6, hByte 0x7, hByte 0xC,
    hReg 0x5 0x0, hReg 0x8 0x0, hReg 0x8 0x1, hReg 0x8 0x2, hReg 0x8 0x3, hReg 0x8 0x4, hReg 0x8 0x5, hReg 0x8 0x6, hReg 0x8 0x7,
    hReg 0x8 0xE, hReg 0x9 0x0, toNat_encode_drw x y hn,
    hSub 0xE 0x9E, hSub 0xE 0xA1, hSub 0xF 0x07, hSub 0xF 0x0A, hSub 0xF 0x15, hSub 0xF 0x18, hSub 0xF 0x1E, hSub 0xF 0x29,
    hSub 0xF 0x33, hSub 0xF 0x55, hSub 0xF 0x65⟩

/-- Settles O1: the decoder evaluated on ten words. -/
theorem decodeOfWrittenWords : Obligations.DecodeOfWrittenWords := by
  unfold Obligations.DecodeOfWrittenWords
  decide

/-! ### The fields of a word as numbers -/

section FieldNumbers
variable (w : Word)

theorem toNat_fieldF : (fieldF w).toNat = w.toNat / 0x1000 := by
  rw [fieldF, BitVec.extractLsb'_toNat, Nat.shiftRight_eq_div_pow]
  omega

theorem toNat_fieldN : (fieldN w).toNat = w.toNat % 0x10 := by
  rw [fieldN, BitVec.extractLsb'_toNat, Nat.shiftRight_zero]

theorem toNat_fieldNN : (fieldNN w).toNat = w.toNat % 0x100 := by
  rw [fieldNN, BitVec.extractLsb'_toNat, Nat.shiftRight_zero]

end FieldNumbers

/-! ### The invalid words, family by family (R87) -/

section InvalidWords
variable {w : Word}

theorem fieldN_eq_zero_iff : fieldN w = 0x0#4 ↔ w.toNat % 0x10 = 0 := by
  rw [← toNat_fieldN, BitVec.toNat_eq]
  rfl

theorem decodeFamily8_invalid_iff : decodeFamily8 w = .error (.invalidWord w) ↔
    w.toNat % 0x10 ∈ [0x8, 0x9, 0xA, 0xB, 0xC, 0xD, 0xF] := by
  rw [← toNat_fieldN]
  unfold decodeFamily8
  split
  case h_10 =>   -- the seven values of N that are left
    simp_all [BitVec.toNat_eq]
    omega
  all_goals simp [*]

theorem decodeFamilyE_invalid_iff : decodeFamilyE w = .error (.invalidWord w) ↔ w.toNat % 0x100 ∉ [0x9E, 0xA1] := by
  rw [← toNat_fieldNN]
  unfold decodeFamilyE
  split
  case h_3 => simp_all [BitVec.toNat_eq]
  all_goals simp [*]

theorem decodeFamilyF_invalid_iff : decodeFamilyF w = .error (.invalidWord w) ↔
    w.toNat % 0x100 ∉ [0x07, 0x0A, 0x15, 0x18, 0x1E, 0x29, 0x33, 0x55, 0x65] := by
  rw [← toNat_fieldNN]
  unfold decodeFamilyF
  split
  case h_10 => simp_all [BitVec.toNat_eq]
  all_goals simp [*]

theorem toNat_div_of_fieldF {f : BitVec 4} (hF : fieldF w = f) : w.toNat / 0x1000 = f.toNat := by
  rw [← hF, toNat_fieldF]

end InvalidWords

/-- Settles O6: by the opcode family, which is the word divided by 0x1000; only family 0 lies below 0x1000. -/
theorem invalidWordsAreExactlyTheListed : Obligations.InvalidWordsAreExactlyTheListed := by
  intro w
  have hsmall : w.toNat < 0x1000 ↔ w.toNat / 0x1000 = 0 := by omega
  unfold decodeWord
  split <;> rename_i hF
  case h_17 =>   -- no seventeenth family
    exfalso
    generalize fieldF w = f at *
    revert f
    decide
  all_goals
    have hfamily := toNat_div_of_fieldF hF
    simp only [BitVec.toNat_ofNat, Nat.reducePow, Nat.reduceMod] at hfamily
    rw [hsmall, hfamily]
  case h_1 => split_ifs with hcls hret <;> simp_all [BitVec.toNat_eq]
  case h_6 | h_10 => simp [fieldN_eq_zero_iff]
  case h_9 => simp [decodeFamily8_invalid_iff]
  case h_15 => simp [decodeFamilyE_invalid_iff]
  case h_16 => simp [decodeFamilyF_invalid_iff]
  all_goals simp

end Sys2Proof
end

section
/-! PROOF of AddImmediateWrapsWithoutFlag, LogicWorksBitByBit, RandomIsMasked and the five flag statements AddSetsSumAndCarry,
SubtractSetsDifferenceAndStrictFlag, ReverseSubtractWritesVy, ShiftRightHalvesAndKeepsLowBit and ShiftLeftDoublesAndKeepsHighBit
(42_register_alu.md R141 to R151): an instruction with a destination and a flag, in either order of the two writes (D5). -/

namespace Sys2Proof.Machine

/-- Settles O29: `executes_setV` with the sum. -/
theorem addImmediateWrapsWithoutFlag : Obligations.AddImmediateWrapsWithoutFlag := by
  intro s x nn
  refine (executes_setV rfl).imp fun t ⟨hx, hpc⟩ => ⟨?_, hpc⟩
  rw [hx, BitVec.toNat_add]

/-- Settles O30: `executes_setV` with the three logic operations, read bit by bit. -/
theorem logicWorksBitByBit : Obligations.LogicWorksBitByBit := by
  intro s x y
  refine ⟨?_, ?_, ?_⟩ <;> refine (executes_setV rfl).imp fun t ⟨hx, hpc⟩ => ⟨hpc, fun k => ?_⟩
  · rw [hx, BitVec.getLsbD_or]
  · rw [hx, BitVec.getLsbD_and]
  · rw [hx, BitVec.getLsbD_xor]

/-- Settles O36: `executes_setV` with the masked random byte, read bit by bit. -/
theorem randomIsMasked : Obligations.RandomIsMasked := by
  intro s x nn
  refine (executes_setV rfl).imp fun t ⟨hx, hpc⟩ => ⟨fun k => ?_, hpc⟩
  rw [hx, BitVec.getLsbD_and]

/-! ### A destination and a flag -/

/-- What lies outside the registers `x` and VF is neither of the two. -/
theorem ne_of_not_mem_dest_flag {r x : Reg} (h : r ∉ [x, VF]) : r ≠ x ∧ r ≠ VF := by simpa using h

section FlagShapes
variable {i : Instr} {s : State} {x : Reg} {b flag : Byte}

/-- The flag last: with X = F it is what VF holds. -/
theorem executes_setV_flag (hi : exec i s = ((s.advance.setV x b).setV VF flag).complete) :
    Executes i s { regs := [x, VF] } fun t =>
      (x ≠ VF → t.getV x = b) ∧ t.getV VF = flag ∧ t.pc = s.pc + 2 := by
  refine ⟨_, hi, rfl, Keeps.of_registers rfl fun r hr => ?_, fun hx => ?_, ?_, rfl⟩
  · obtain ⟨hrx, hrf⟩ := ne_of_not_mem_dest_flag hr
    exact (State.getV_setV_other _ flag hrf).trans (State.getV_setV_other s.advance b hrx)
  · exact (State.getV_setV_other _ flag hx).trans (State.getV_setV_same s.advance x b)
  · exact State.getV_setV_same _ VF flag

/-- The flag first, the destination computed from its register as it then stands: with X = F, from the flag. -/
theorem executes_flag_setV {op : Byte → Byte} (hi : exec i s =
    ((s.advance.setV VF flag).setV x (op ((s.advance.setV VF flag).getV x))).complete) :
    Executes i s { regs := [x, VF] } fun t =>
      (x ≠ VF → t.getV x = op (s.getV x) ∧ t.getV VF = flag) ∧ (x = VF → t.getV VF = op flag) ∧ t.pc = s.pc + 2 := by
  refine ⟨_, hi, rfl, Keeps.of_registers rfl fun r hr => ?_, fun hx => ⟨?_, ?_⟩, ?_, rfl⟩
  · obtain ⟨hrx, hrf⟩ := ne_of_not_mem_dest_flag hr
    exact (State.getV_setV_other _ _ hrx).trans (State.getV_setV_other s.advance flag hrf)
  · refine (State.getV_setV_same _ x _).trans ?_
    rw [State.getV_setV_other s.advance flag hx, State.getV_advance]
  · exact (State.getV_setV_other _ _ hx.symm).trans (State.getV_setV_same s.advance VF flag)
  · rintro rfl
    refine (State.getV_setV_same _ VF _).trans ?_
    rw [State.getV_setV_same]

end FlagShapes

/-! ### The bytes and the flags as numbers -/

section Numbers
variable (a b : Byte)

theorem toNat_carryFlag : (carryFlag a b).toNat = if a.toNat + b.toNat > 255 then 1 else 0 := by
  rw [carryFlag, toNat_flagByte]
  simp only [decide_eq_true_eq]

theorem toNat_greaterFlag : (greaterFlag a b).toNat = if a.toNat > b.toNat then 1 else 0 := by
  rw [greaterFlag, toNat_flagByte]
  simp only [decide_eq_true_eq]

theorem toNat_sub_byte : (a - b).toNat = (256 + a.toNat - b.toNat) % 256 := by
  have hb : b.toNat < 256 := b.isLt
  rw [BitVec.toNat_sub]
  congr 1
  omega

theorem toNat_shiftOutLow : (shiftOutLow a).toNat = a.toNat % 2 := by
  have hmask : a.toNat &&& 1 = a.toNat % 2 := Nat.and_two_pow_sub_one_eq_mod a.toNat 1
  rw [shiftOutLow, BitVec.toNat_and]
  exact hmask

theorem toNat_shiftOutHigh : (shiftOutHigh a).toNat = a.toNat / 128 := by
  rw [shiftOutHigh, BitVec.toNat_ushiftRight, Nat.shiftRight_eq_div_pow]

theorem toNat_shiftRight_one : (a >>> 1).toNat = a.toNat / 2 := by
  rw [BitVec.toNat_ushiftRight, Nat.shiftRight_eq_div_pow]

theorem toNat_shiftLeft_one : (a <<< 1).toNat = a.toNat * 2 % 256 := by
  rw [BitVec.toNat_shiftLeft, Nat.shiftLeft_eq]

end Numbers

/-! ### The five flag statements -/

/-- Settles O31: `executes_setV_flag` with the sum and the carry. -/
theorem addSetsSumAndCarry : Obligations.AddSetsSumAndCarry := by
  intro s x y
  refine (executes_setV_flag rfl).imp fun t ⟨hdest, hflag, hpc⟩ => ⟨fun hx => ?_, ?_, hpc⟩
  · rw [hdest hx, BitVec.toNat_add]
  · rw [hflag, toNat_carryFlag]

/-- Settles O32: `executes_setV_flag` with the difference and the strict comparison. -/
theorem subtractSetsDifferenceAndStrictFlag : Obligations.SubtractSetsDifferenceAndStrictFlag := by
  intro s x y
  refine (executes_setV_flag rfl).imp fun t ⟨hdest, hflag, hpc⟩ => ⟨fun hx => ?_, ?_, hpc⟩
  · rw [hdest hx, toNat_sub_byte]
  · rw [hflag, toNat_greaterFlag]

/-- Settles O34: as O32, with V[Y] as the destination and the minuend. -/
theorem reverseSubtractWritesVy : Obligations.ReverseSubtractWritesVy := by
  intro s x y
  refine (executes_setV_flag rfl).imp fun t ⟨hdest, hflag, hpc⟩ => ⟨fun hy => ?_, ?_, hpc⟩
  · rw [hdest hy, toNat_sub_byte]
  · rw [hflag, toNat_greaterFlag]

/-- Settles O33: `executes_flag_setV` with the halving; half of a bit is 0. -/
theorem shiftRightHalvesAndKeepsLowBit : Obligations.ShiftRightHalvesAndKeepsLowBit := by
  intro s x y
  refine (executes_flag_setV (op := (· >>> 1)) rfl).imp fun t ⟨hdest, hvf, hpc⟩ => ⟨fun hx => ?_, fun hx => ?_, hpc⟩
  · obtain ⟨hdest, hflag⟩ := hdest hx
    rw [hdest, hflag]
    exact ⟨toNat_shiftRight_one _, toNat_shiftOutLow _⟩
  · rw [hvf hx, toNat_shiftRight_one, toNat_shiftOutLow]
    omega

/-- Settles O35: `executes_flag_setV` with the doubling. -/
theorem shiftLeftDoublesAndKeepsHighBit : Obligations.ShiftLeftDoublesAndKeepsHighBit := by
  intro s x y
  refine (executes_flag_setV (op := (· <<< 1)) rfl).imp fun t ⟨hdest, hvf, hpc⟩ => ⟨fun hx => ?_, fun hx => ?_, hpc⟩
  · obtain ⟨hdest, hflag⟩ := hdest hx
    rw [hdest, hflag]
    exact ⟨toNat_shiftLeft_one _, toNat_shiftOutHigh _⟩
  · rw [hvf hx, toNat_shiftLeft_one, toNat_shiftOutHigh]
    omega

end Sys2Proof.Machine
end

section
/-! PROOF of JumpSetsPc, IndexedJumpAddsV0, ReturnPopsTheTopFrame, CallPushesTheReturnAddress, ReturnWithIllegalStackPointerStops and
ReturnGoesBackBehindTheCall (41_control_flow.md R121 to R123, R128): the jumps, and what Push and Pop do to the stack. -/

namespace Sys2Proof.Machine

/-! ### The jumps -/

/-- The shape of a jump: PC is set and nothing else. -/
theorem executes_setPc {i : Instr} {s : State} {a : Word} (hi : exec i s = State.complete { s with pc := a }) :
    Executes i s {} fun t => t.pc = a :=
  ⟨_, hi, rfl, Keeps.of_pc_report {} rfl, rfl⟩

/-- Settles O23: `executes_setPc` with the widened NNN, and the word the encoder's as a number. -/
theorem jumpSetsPc : Obligations.JumpSetsPc := by
  intro s nnn
  refine ⟨(executes_setPc rfl).imp fun t hpc => ?_, ?_⟩
  · rw [hpc, toNat_zextAddr]
  · exact isTheWordOf_of_toNat_encode rfl (toNat_wordAddr 0x1 nnn)

/-- A 12-bit address and a byte never add up to 2^16. -/
theorem toNat_zextAddr_add_zextByte (nnn : BitVec 12) (b : Byte) :
    (zextAddr nnn + zextByte b).toNat = nnn.toNat + b.toNat := by
  rw [BitVec.toNat_add, toNat_zextAddr, toNat_zextByte]
  omega

/-- Settles O24: `executes_setPc` with the sum. -/
theorem indexedJumpAddsV0 : Obligations.IndexedJumpAddsV0 := by
  intro s nnn
  refine (executes_setPc rfl).imp fun t hpc => ?_
  rw [hpc, toNat_zextAddr_add_zextByte]

/-! ### The stack -/

/-- A state that differs in the stack, PC and the report only keeps everything but the stack. -/
theorem Keeps.of_stack {f : Footprint} {s t : State} (hf : f.stack = true)
    (h : t = { s with stk := t.stk, sp := t.sp, pc := t.pc, report := t.report }) : Keeps f s t := by
  rw [h]
  constructor
  case stack => intro hkept; simp [hf] at hkept
  case screen => exact fun _ => ⟨rfl, rfl⟩
  case schedule => exact ⟨rfl, rfl⟩
  all_goals intros; rfl

/-- SP moves by 2 without wrapping, up on a stack that is not full and down on one that is not empty. -/
theorem toNat_sp_add_two {sp : Byte} (h : sp.toNat + 2 ≤ stackBytes) : (sp + 2).toNat = sp.toNat + 2 := by
  simp only [stackBytes] at h
  bv_omega

theorem toNat_sp_sub_two {sp : Byte} (h : 2 ≤ sp.toNat) : (sp - 2).toNat = sp.toNat - 2 := by
  bv_omega

/-- 00EE on a stack that is not empty, SP in its buffer. -/
theorem executes_ret {s : State} (h2 : 2 ≤ s.sp.toNat) (h32 : s.sp.toNat ≤ stackBytes) :
    Executes .ret s { stack := true } fun t =>
      t.pc = joinBytes ((s.stk[s.sp.toNat - 2]?).getD 0) ((s.stk[s.sp.toNat - 1]?).getD 0) ∧ t.sp = s.sp - 2 ∧ t.stk = s.stk :=
  ⟨_, execRet_value h2 h32, rfl, Keeps.of_stack rfl rfl, rfl, rfl, rfl⟩

/-- Settles O18: `executes_ret`, both bytes of the frame being in the buffer. -/
theorem returnPopsTheTopFrame : Obligations.ReturnPopsTheTopFrame := by
  intro s h2 h32
  have hhi : s.sp.toNat - 2 < 32 := by omega
  have hlo : s.sp.toNat - 1 < 32 := by omega
  refine (executes_ret h2 h32).imp fun t ⟨hpc, hsp, hstk⟩ => ⟨?_, ?_, hstk⟩
  · rw [hpc, Vector.getElem?_eq_getElem hhi, Vector.getElem?_eq_getElem hlo]
    rfl
  · rw [hsp, toNat_sp_sub_two h2]

/-- Settles O22. -/
theorem returnWithIllegalStackPointerStops : Obligations.ReturnWithIllegalStackPointerStops :=
  fun _ h => execRet_outsideBuffer h

/-- The stack buffer with the return address of a call in `s` pushed (R32). -/
def State.pushedStack (s : State) : StackBuffer :=
  (s.stk.setIfInBounds s.sp.toNat (highByte (s.pc + 2))).setIfInBounds (s.sp.toNat + 1) (lowByte (s.pc + 2))

theorem State.push_returnAddress {s : State} (h : s.sp.toNat + 2 ≤ stackBytes) :
    s.push (s.pc + 2) = some { s with stk := s.pushedStack, sp := s.sp + 2 } :=
  State.push_eq_some.2 ⟨h, rfl⟩

theorem State.getElem_pushedStack (s : State) (j : Nat) (h : j < stackBytes) : s.pushedStack[j] =
    if j = s.sp.toNat then highByte (s.pc + 2) else if j = s.sp.toNat + 1 then lowByte (s.pc + 2) else s.stk[j] := by
  rw [State.pushedStack, Vector.getElem_setIfInBounds, Vector.getElem_setIfInBounds]
  rcases Nat.lt_trichotomy j s.sp.toNat with hj | hj | hj
  · simp only [show s.sp.toNat + 1 ≠ j by omega, show s.sp.toNat ≠ j by omega, show j ≠ s.sp.toNat by omega,
      show j ≠ s.sp.toNat + 1 by omega, if_false]
  · simp [hj]
  · simp only [show s.sp.toNat ≠ j by omega, show j ≠ s.sp.toNat by omega, if_false, eq_comm]

/-- 2NNN on a stack that is not full. -/
theorem exec_call_room {s : State} (nnn : BitVec 12) (h : s.sp.toNat + 2 ≤ stackBytes) : exec (.call nnn) s =
    State.complete { s with stk := s.pushedStack, sp := s.sp + 2, pc := zextAddr nnn } := by
  simp only [exec, execCall, State.advance_pc, State.push_returnAddress h]

theorem executes_call {s : State} (nnn : BitVec 12) (h : s.sp.toNat + 2 ≤ stackBytes) :
    Executes (.call nnn) s { stack := true } fun t => t.pc = zextAddr nnn ∧ t.sp = s.sp + 2 ∧ t.stk = s.pushedStack :=
  ⟨_, exec_call_room nnn h, rfl, Keeps.of_stack rfl rfl, rfl, rfl, rfl⟩

/-- Settles O19: `executes_call`, the buffer byte by byte. -/
theorem callPushesTheReturnAddress : Obligations.CallPushesTheReturnAddress := by
  intro s nnn h
  refine (executes_call nnn h).imp fun t ⟨hpc, hsp, hstk⟩ => ⟨?_, ?_, fun j hj => ?_⟩
  · rw [hpc, toNat_zextAddr]
  · rw [hsp, toNat_sp_add_two h]
  · rw [← State.getElem_pushedStack s j hj]
    exact congrArg (fun stk : StackBuffer => stk[j]) hstk

/-- Settles O20: Pop finds at SP - 2 and SP - 1 the two bytes that Push has just stored there. -/
theorem returnGoesBackBehindTheCall : Obligations.ReturnGoesBackBehindTheCall := by
  intro s u nnn h
  obtain ⟨t, hcall, -, -, -, hsp, hstk⟩ := executes_call nnn h
  refine ⟨t, hcall, fun husp hustk => ?_⟩
  have hspNat : u.sp.toNat = s.sp.toNat + 2 := by rw [husp, hsp, toNat_sp_add_two h]
  obtain ⟨w, hret, -, -, hwpc, hwsp, -⟩ := executes_ret (s := u) (by omega) (show u.sp.toNat ≤ 32 by omega)
  refine ⟨w, hret, ?_, ?_⟩
  · have hhi : s.sp.toNat < 32 := by omega
    have hlo : s.sp.toNat + 1 < 32 := by omega
    rw [hwpc, hustk, hstk, hspNat, Nat.add_sub_cancel, show s.sp.toNat + 2 - 1 = s.sp.toNat + 1 by omega,
      Vector.getElem?_eq_getElem hhi, Vector.getElem?_eq_getElem hlo, Option.getD_some, Option.getD_some,
      State.getElem_pushedStack s _ hhi, State.getElem_pushedStack s _ hlo]
    simp
  · rw [hwsp, husp, hsp]
    exact BitVec.add_sub_cancel s.sp 2

end Sys2Proof.Machine
end

section
/-! PROOF of AddToIndexWrapsWithoutFlag, GlyphAddressIsFiveTimesVx, BcdStoresThreeDigits, StoreRegistersFillsMemory,
LoadRegistersReadsMemory and LoadAfterStoreGivesTheRegistersBack (43_index_memory.md R171 to R175), and of KeyWaitBegins and
KeySkipsTestTheSampledKey (45_timers_keys.md R210, R211, R213): stores and loads whose range lies in memory, the key-wait latch, the
key test. -/

namespace Sys2Proof.Machine

/-! ### I -/

/-- Settles O38: `executes_setIndex` with the sum modulo 2^16. -/
theorem addToIndexWrapsWithoutFlag : Obligations.AddToIndexWrapsWithoutFlag := by
  intro s x
  refine (executes_setIndex rfl).imp fun t ⟨hi, hpc⟩ => ⟨?_, hpc⟩
  rw [hi, BitVec.toNat_add, toNat_zextByte]

/-- Five times a byte is below 2^16. -/
theorem toNat_glyphAddress (b : Byte) : (glyphAddress b).toNat = b.toNat * 5 := by
  have h5 : (5 : Word).toNat = 5 := rfl
  rw [glyphAddress, BitVec.toNat_mul, toNat_zextByte, h5]
  omega

/-- Settles O39: `executes_setIndex` with the glyph address. -/
theorem glyphAddressIsFiveTimesVx : Obligations.GlyphAddressIsFiveTimesVx := by
  intro s x
  refine (executes_setIndex rfl).imp fun t ⟨hi, hpc⟩ => ⟨?_, hpc⟩
  rw [hi, toNat_glyphAddress]

/-- I behind the bytes that FX55 and FX65 move, when they lie in memory. -/
theorem toNat_index_add_regCount {a : Word} {x : Reg} (h : a.toNat + x.val < 4096) :
    (a + BitVec.ofNat 16 (regCount x)).toNat = a.toNat + x.val + 1 := by
  rw [BitVec.toNat_add, BitVec.toNat_ofNat, regCount]
  omega

/-! ### Stores -/

/-- The shape of an instruction that stores bytes at I and leaves `j` in I. -/
theorem executes_storeBytes {i : Instr} {s : State} {bs : List Byte} {j : Word} {f : Footprint}
    (hi : exec i s = State.complete { s.advance.storeBytes s.i.toNat bs with i := j })
    (hbase : f.storeBase = s.i.toNat) (hlen : f.storeLen = bs.length) (hindex : f.index = false → j = s.i) :
    Executes i s f fun t =>
      (∀ (k : Nat) (h : k < bs.length), t.readByte (s.i.toNat + k) = bs[k]) ∧ t.i = j ∧ t.pc = s.pc + 2 := by
  refine ⟨_, hi, rfl, ?_, fun k h => s.advance.readByte_storeBytes_inside _ bs k h, rfl, rfl⟩
  constructor
  case index => exact hindex
  case memory =>
    intro a ha
    rw [hbase, hlen] at ha
    exact s.advance.readByte_storeBytes_outside _ bs a ha
  case stack | screen => exact fun _ => ⟨rfl, rfl⟩
  case schedule => exact ⟨rfl, rfl⟩
  all_goals intros; rfl

theorem exec_ldB_inside {s : State} (x : Reg) (h : s.i.toNat + 2 < 4096) :
    exec (.ldB x) s = State.complete { s.advance.storeBytes s.i.toNat (bcdDigits (s.getV x)) with i := s.i } := by
  have hr : outOfRange s.i.toNat 3 = none := outOfRange_eq_none.2 (.inr h)
  simp only [exec, execLdB, hr]
  rfl

theorem exec_storeRegs_inside {s : State} {x : Reg} (h : s.i.toNat + x.val < 4096) :
    exec (.storeRegs x) s = State.complete
      { s.advance.storeBytes s.i.toNat (s.firstRegisters (regCount x)) with i := s.i + BitVec.ofNat 16 (regCount x) } := by
  have hr : outOfRange s.i.toNat (regCount x) = none := outOfRange_eq_none.2 (.inr h)
  simp only [exec, execStoreRegs, hr]

/-- Settles O40: `executes_storeBytes` with the three digits, each of which is below 256. -/
theorem bcdStoresThreeDigits : Obligations.BcdStoresThreeDigits := by
  intro s x h
  refine (executes_storeBytes (exec_ldB_inside x h) rfl rfl fun _ => rfl).imp fun t ⟨hbytes, _, hpc⟩ => ?_
  have hdigit (k : Nat) (hk : k < 3) := congrArg BitVec.toNat (hbytes k hk)
  have hundreds := hdigit 0 (by decide)
  have htens := hdigit 1 (by decide)
  have hones := hdigit 2 (by decide)
  simp only [bcdDigits, List.getElem_cons_zero, List.getElem_cons_succ, BitVec.toNat_ofNat, Nat.add_zero] at hundreds htens hones
  exact ⟨by omega, by omega, by omega, hpc⟩

/-- FX55 stores V[0] to V[X]: as many bytes as it says, byte j the register j. -/
theorem State.length_firstRegisters_regCount (s : State) (x : Reg) : (s.firstRegisters (regCount x)).length = x.val + 1 := by
  rw [State.length_firstRegisters, regCount]
  omega

/-- Settles O41: `executes_storeBytes` with the first registers. -/
theorem storeRegistersFillsMemory : Obligations.StoreRegistersFillsMemory := by
  intro s x h
  have hlen := s.length_firstRegisters_regCount x
  refine Executes.imp (executes_storeBytes (exec_storeRegs_inside h) rfl hlen.symm nofun) fun t ⟨hbytes, hi, hpc⟩ =>
    ⟨fun j hj => ?_, ?_, hpc⟩
  · have hj : j.val < (s.firstRegisters (regCount x)).length := by
      rw [hlen]
      exact Nat.lt_succ_of_le hj
    rw [hbytes j.val hj, State.getElem_firstRegisters]
    rfl
  · rw [hi, toNat_index_add_regCount h]

/-! ### Loads -/

theorem exec_loadRegs_inside {s : State} {x : Reg} (h : s.i.toNat + x.val < 4096) :
    exec (.loadRegs x) s = State.complete { s.advance with
      v := fillRegisters (fun j => s.readByte (s.i.toNat + j)) (regCount x) s.v, i := s.i + BitVec.ofNat 16 (regCount x) } := by
  have hr : outOfRange s.i.toNat (regCount x) = none := outOfRange_eq_none.2 (.inr h)
  simp only [exec, execLoadRegs, hr]

/-- Settles O42: the filled register file, register by register. -/
theorem loadRegistersReadsMemory : Obligations.LoadRegistersReadsMemory := by
  intro s x h
  have hregs (r : Reg) := getElem_fillRegisters (fun j => s.readByte (s.i.toNat + j)) (regCount x) s.v r.val r.isLt
  refine ⟨_, exec_loadRegs_inside h, rfl, ?_, fun j hj => ?_, toNat_index_add_regCount h, rfl⟩
  · constructor
    case regs =>
      intro r hr
      have hxr : ¬ r ≤ x := by simpa using hr
      exact (hregs r).trans (if_neg fun hlt => hxr (Nat.le_of_lt_succ hlt))
    case index => exact nofun
    case stack | screen => exact fun _ => ⟨rfl, rfl⟩
    case schedule => exact ⟨rfl, rfl⟩
    all_goals intros; rfl
  · exact (hregs j).trans (if_pos (Nat.lt_succ_of_le hj))

/-- Settles O43: what O42 loads is what O41 has stored. -/
theorem loadAfterStoreGivesTheRegistersBack : Obligations.LoadAfterStoreGivesTheRegistersBack := by
  intro s u x h
  obtain ⟨t, hstore, -, -, hbytes, -, -⟩ := storeRegistersFillsMemory s x h
  refine ⟨t, hstore, fun hmem hcfg hindex => ?_⟩
  obtain ⟨w, hload, -, -, hregs, -, -⟩ := loadRegistersReadsMemory u x (by rw [hindex]; exact h)
  refine ⟨w, hload, fun j hj => ?_⟩
  rw [hregs j hj, State.readByte_congr hmem hcfg, hindex, hbytes j hj]

/-! ### Keys -/

/-- A state that differs in the latch, PC and the report only keeps everything but the latch. -/
theorem Keeps.of_keyWait {f : Footprint} {s t : State} (hf : f.keyWait = true)
    (h : t = { s with kw := t.kw, pc := t.pc, report := t.report }) : Keeps f s t := by
  rw [h]
  constructor
  case keyWait => intro hkept; simp [hf] at hkept
  case stack | screen => exact fun _ => ⟨rfl, rfl⟩
  case schedule => exact ⟨rfl, rfl⟩
  all_goals intros; rfl

/-- Settles O50. -/
theorem keyWaitBegins : Obligations.KeyWaitBegins :=
  fun _ _ => ⟨_, rfl, rfl, Keeps.of_keyWait rfl rfl, rfl, rfl⟩

theorem State.skipOnKey_inRange {s : State} {x : Reg} (want : Bool) (h : (s.getV x).toNat ≤ 15) :
    s.skipOnKey x want = (s.advance.skipIf (pressed s.input (s.getV x).toNat == want)).complete := by
  have hkey : isKeyIndex (s.getV x) = true := decide_eq_true h
  rw [State.skipOnKey, if_pos hkey]

/-- Settles O51: the skips of `executes_skipIf`, on the key and on its complement. -/
theorem keySkipsTestTheSampledKey : Obligations.KeySkipsTestTheSampledKey := by
  intro s x h
  refine ⟨?_, ?_⟩
  · exact executes_skipIf (State.skipOnKey_inRange true h) beq_iff_eq
  · have hskip : Executes (.sknp x) s {} _ := executes_skipIf (State.skipOnKey_inRange false h) beq_iff_eq
    exact hskip.imp fun t hpc => by simpa only [pressed, ← Bool.not_eq_true, ite_not] using hpc

end Sys2Proof.Machine
end

section
/-! PROOF of DrawInvertsExactlyTheSprite and DrawingTwiceErasesTheSprite (44_display.md R191 to R193): a whole sprite row by row, no
two rows of which fall on one row of the screen, then the draw once and twice. -/

namespace Sys2Proof.Machine

/-! ### A whole sprite, row by row -/

/-- Some 1 bit of the first n rows of a sprite at (x0, y0), row r being `rowByte r`, falls on pixel (px, py). -/
def RowsCover (x0 y0 : Byte) (rowByte : Nat → Byte) (n : Nat) (px : Fin fbWidth) (py : Fin fbHeight) : Prop :=
  ∃ r < n, py = pixelRow y0 r ∧ ∃ c < 8, px = pixelColumn x0 c ∧ spriteBit (rowByte r) c = true

section Rows
variable {x0 y0 : Byte} {rowByte : Nat → Byte} {n : Nat} {px : Fin fbWidth} {py : Fin fbHeight}

theorem rowsCover_succ : RowsCover x0 y0 rowByte (n + 1) px py ↔ RowsCover x0 y0 rowByte n px py ∨
    (py = pixelRow y0 n ∧ ∃ c < 8, px = pixelColumn x0 c ∧ spriteBit (rowByte n) c = true) :=
  Nat.exists_lt_succ_right

/-- Row n falls where none of the rows before it fell. -/
theorem not_rowsCover_next (hn : n < 16) : ¬ RowsCover x0 y0 rowByte n px (pixelRow y0 n) := by
  rintro ⟨r, hr, hrow, -⟩
  have hnr : n = r := pixelRow_injective y0 hn (by omega) hrow
  omega

/-- The pixels that the rows cover are inverted, the others stay. -/
theorem Draw.pixel_rows (d : Draw) (hn : n ≤ 16) :
    (d.rows x0 y0 rowByte n).fb.pixel px py ≠ d.fb.pixel px py ↔ RowsCover x0 y0 rowByte n px py := by
  induction n with
  | zero => simp [Draw.rows, RowsCover]
  | succ n ih =>
    have ih := ih (by omega)
    have hbits := (d.rows x0 y0 rowByte n).pixel_bits x0 (pixelRow y0 n) (rowByte n) 8 (Nat.le_refl 8) px py
    rw [Draw.rows, rowsCover_succ]
    by_cases hrow : py = pixelRow y0 n
    · subst hrow
      have hbefore : ¬ RowsCover x0 y0 rowByte n px (pixelRow y0 n) := not_rowsCover_next (by omega)
      have hsame := not_ne_iff.1 (mt ih.1 hbefore)
      rw [← hsame, hbits]
      exact (or_iff_right hbefore).symm
    · have hsame := not_ne_iff.1 (mt hbits.1 fun h => hrow h.1)
      rw [hsame, ih]
      exact (or_iff_left fun h => hrow h.1).symm

/-- The rows collide when a pixel that they cover was lit. -/
theorem Draw.collide_rows (d : Draw) (hn : n ≤ 16) : (d.rows x0 y0 rowByte n).collide = true ↔
    d.collide = true ∨ ∃ px py, RowsCover x0 y0 rowByte n px py ∧ d.fb.pixel px py = true := by
  induction n with
  | zero => simp [Draw.rows, RowsCover]
  | succ n ih =>
    have hsame (px : Fin fbWidth) : (d.rows x0 y0 rowByte n).fb.pixel px (pixelRow y0 n) = d.fb.pixel px (pixelRow y0 n) :=
      not_ne_iff.1 (mt (d.pixel_rows (by omega)).1 (not_rowsCover_next (by omega)))
    simp only [Draw.rows, Draw.collide_bits _ _ _ _ 8 (Nat.le_refl 8), ih (by omega), hsame, rowsCover_succ, or_and_right,
      exists_or, or_assoc]
    refine or_congr_right (or_congr_right ⟨?_, ?_⟩)
    · rintro ⟨c, hc, hbit, hlit⟩
      exact ⟨_, _, ⟨rfl, c, hc, rfl, hbit⟩, hlit⟩
    · rintro ⟨_, _, ⟨rfl, c, hc, rfl, hbit⟩, hlit⟩
      exact ⟨c, hc, hbit, hlit⟩

end Rows

/-! ### The sprite in memory -/

section Sprite
variable {s : State} {x y : Reg} {n : Nat} {px : Fin fbWidth} {py : Fin fbHeight}

theorem State.rowsCover_iff_spriteCovers {x0 y0 : Byte} :
    RowsCover x0 y0 (fun r => s.readByte (s.i.toNat + r)) n px py ↔ s.SpriteCovers x0 y0 n px py := by
  constructor
  · rintro ⟨r, hr, rfl, c, hc, rfl, hbit⟩
    exact ⟨r, c, hr, hc, rfl, rfl, hbit⟩
  · rintro ⟨r, c, hr, hc, hx, hy, hbit⟩
    exact ⟨r, hr, Fin.ext hy, c, hc, Fin.ext hx, hbit⟩

theorem State.pixel_drawSprite (hn : n ≤ 15) : (s.drawSprite x y n).fb.pixel px py ≠ s.fb.pixel px py ↔
    s.SpriteCovers (s.getV x) (s.getV y) n px py :=
  (Draw.pixel_rows _ (Nat.le_succ_of_le hn)).trans s.rowsCover_iff_spriteCovers

theorem State.collide_drawSprite (hn : n ≤ 15) : (s.drawSprite x y n).collide = true ↔
    ∃ px py, s.SpriteCovers (s.getV x) (s.getV y) n px py ∧ s.fb.pixel px py = true := by
  simp only [State.drawSprite, Draw.collide_rows _ (Nat.le_succ_of_le hn), s.rowsCover_iff_spriteCovers, Bool.false_eq_true,
    false_or]

/-- What a sprite covers depends on the bytes from I up only. -/
theorem State.spriteCovers_congr {u : State} {x0 y0 : Byte} (hi : u.i = s.i) (hbytes : ∀ a, u.readByte a = s.readByte a) :
    u.SpriteCovers x0 y0 n px py ↔ s.SpriteCovers x0 y0 n px py := by
  simp only [State.SpriteCovers, hi, hbytes]

/-- The eight columns of a sprite row show all bits of its byte. -/
theorem exists_spriteBit_iff {b : Byte} : (∃ c < 8, spriteBit b c = true) ↔ b ≠ 0 := by
  constructor
  · rintro ⟨c, -, hbit⟩ rfl
    simp [spriteBit] at hbit
  · intro hb
    by_contra hdark
    refine hb (BitVec.eq_of_getLsbD_eq fun k hk => ?_)
    have hbit : ¬ spriteBit b (7 - k) = true := fun h => hdark ⟨7 - k, by omega, h⟩
    rw [spriteBit, show 7 - (7 - k) = k by omega, Bool.not_eq_true] at hbit
    rw [hbit, BitVec.ofNat_eq_ofNat, BitVec.getLsbD_zero]

theorem State.exists_spriteCovers_iff {x0 y0 : Byte} :
    (∃ px py, s.SpriteCovers x0 y0 n px py) ↔ ∃ r < n, s.readByte (s.i.toNat + r) ≠ 0 := by
  simp only [← exists_spriteBit_iff]
  constructor
  · rintro ⟨_, _, r, c, hr, hc, -, -, hbit⟩
    exact ⟨r, hr, c, hc, hbit⟩
  · rintro ⟨r, hr, c, hc, hbit⟩
    exact ⟨pixelColumn x0 c, pixelRow y0 r, r, c, hr, hc, rfl, rfl, hbit⟩

end Sprite

/-! ### The draw -/

section Collision
variable {b : Bool}

theorem collisionFlag_eq_one_iff : collisionFlag b = 1 ↔ b = true := by cases b <;> decide

theorem collisionFlag_eq_zero_iff : collisionFlag b = 0 ↔ ¬ b = true := by cases b <;> decide

end Collision

theorem exec_drw_inside {s : State} (x y : Reg) {n : Nat} (h : n = 0 ∨ s.i.toNat + n ≤ 4096) : exec (.drw x y n) s =
    (State.setV { s.advance with fb := (s.drawSprite x y n).fb, dirty := true } VF
      (collisionFlag (s.drawSprite x y n).collide)).complete := by
  have hr : outOfRange s.i.toNat n = none := outOfRange_eq_none.2 h
  simp only [exec, execDrw, hr]

/-- DXYN in range: the screen of the drawn sprite and its collision, and nothing else. -/
theorem executes_drw (s : State) (x y : Reg) {n : Nat} (h : n = 0 ∨ s.i.toNat + n ≤ 4096) :
    Executes (.drw x y n) s { regs := [VF], screen := true } fun t =>
      t.fb = (s.drawSprite x y n).fb ∧ t.getV VF = collisionFlag (s.drawSprite x y n).collide ∧ t.dirty = true ∧
      t.pc = s.pc + 2 := by
  refine ⟨_, exec_drw_inside x y h, rfl, ?_, rfl, State.getV_setV_same _ VF _, rfl, rfl⟩
  constructor
  case regs => exact fun r hr => State.getV_setV_other _ _ (List.ne_of_not_mem_cons hr)
  case screen => exact nofun
  case stack => exact fun _ => ⟨rfl, rfl⟩
  case schedule => exact ⟨rfl, rfl⟩
  all_goals intros; rfl

/-- Settles O47: `executes_drw`, the screen pixel by pixel and the collision as a covered pixel that was lit. -/
theorem drawInvertsExactlyTheSprite : Obligations.DrawInvertsExactlyTheSprite := by
  intro s x y n hn hrange
  refine (executes_drw s x y hrange).imp fun t ⟨hfb, hflag, hdirty, hpc⟩ =>
    ⟨fun px py => ⟨fun hcovers => ?_, fun hnot => ?_⟩, fun hlit => ?_, fun hdark => ?_, hdirty, hpc⟩
  · rw [hfb, Bool.eq_not]
    exact (State.pixel_drawSprite hn).2 hcovers
  · rw [hfb]
    exact not_ne_iff.1 (mt (State.pixel_drawSprite hn).1 hnot)
  · rw [hflag, collisionFlag_eq_one_iff]
    exact (State.collide_drawSprite hn).2 hlit
  · rw [hflag, collisionFlag_eq_zero_iff, State.collide_drawSprite hn]
    rintro ⟨px, py, hcovers, hlit⟩
    exact Bool.false_ne_true ((hdark px py hcovers).symm.trans hlit)

/-- Settles O48: both draws cover the same pixels, so each of those is inverted twice, and is lit for the second draw exactly when it
was dark for the first. -/
theorem drawingTwiceErasesTheSprite : Obligations.DrawingTwiceErasesTheSprite := by
  intro s u x y n hn hrange
  obtain ⟨t, hdraw, -, -, htfb, -, -, -⟩ := executes_drw s x y hrange
  refine ⟨t, hdraw, fun hufb hui hux huy hbytes => ?_⟩
  obtain ⟨w, hagain, -, -, hwfb, hflag, -, -⟩ := executes_drw u x y (hui ▸ hrange)
  have hfirst (px py) : u.fb.pixel px py ≠ s.fb.pixel px py ↔ s.SpriteCovers (s.getV x) (s.getV y) n px py := by
    rw [hufb, htfb, State.pixel_drawSprite hn]
  have hsecond (px py) : w.fb.pixel px py ≠ u.fb.pixel px py ↔ s.SpriteCovers (s.getV x) (s.getV y) n px py := by
    rw [hwfb, State.pixel_drawSprite hn, hux, huy, State.spriteCovers_congr hui hbytes]
  have hcollides : w.getV VF = 1 ↔
      ∃ px py, s.SpriteCovers (s.getV x) (s.getV y) n px py ∧ s.fb.pixel px py = false := by
    rw [hflag, collisionFlag_eq_one_iff, State.collide_drawSprite hn, hux, huy]
    refine exists_congr fun px => exists_congr fun py => ?_
    rw [State.spriteCovers_congr hui hbytes]
    refine and_congr_right fun hcovers => ?_
    rw [Bool.eq_not.2 ((hfirst px py).2 hcovers), Bool.not_eq_true']
  refine ⟨w, hagain, FrameBuffer.ext_pixel fun px py => ?_, ?_, hcollides, fun hdark => ?_⟩
  · by_cases hcovers : s.SpriteCovers (s.getV x) (s.getV y) n px py
    · rw [Bool.eq_not.2 ((hsecond px py).2 hcovers), Bool.eq_not.2 ((hfirst px py).2 hcovers), Bool.not_not]
    · rw [not_ne_iff.1 (mt (hsecond px py).1 hcovers), not_ne_iff.1 (mt (hfirst px py).1 hcovers)]
  · rw [hflag, collisionFlag, toNat_flagByte]
    split_ifs <;> decide
  · rw [hcollides, ← s.exists_spriteCovers_iff (x0 := s.getV x) (y0 := s.getV y)]
    exact exists_congr fun px => exists_congr fun py => and_iff_left_of_imp (hdark px py)

end Sys2Proof.Machine
end

section
/-! PROOF of ErrorsAreExactlyThoseOfTheTable, StackErrorsHalt, AccessOutsideMemoryHalts and KeyIndexAboveFifteenHalts (60_exceptions.md
R232, R235), then of OnlyNamedRegistersAreWritten and EachPieceOfStateHasItsWriters (10_state.md R22 to R30): an instruction raises the
error of the table or completes within its footprint. -/

namespace Sys2Proof.Machine

/-! ### The errors -/

section Errors
variable {s : State}

/-- An access to `len` bytes at I, one of which does not exist (R57). -/
theorem outOfRange_of_outside {base len : Nat} (hlen : 0 < len) (h : 4096 ≤ base + len - 1) :
    outOfRange base len = some (max base 4096) :=
  outOfRange_eq_some.2 ⟨by omega, show 4096 < base + len by omega, rfl⟩

theorem exec_call_full (nnn : BitVec 12) (h : 32 < s.sp.toNat + 2) :
    exec (.call nnn) s = .next (s.halt (.stackOverflow s.sp)) := by
  simp only [exec, execCall, State.push_eq_none.2 h]
  rfl

theorem exec_drw_outside (x y : Reg) {n : Nat} (hn : 0 < n) (h : 4096 ≤ s.i.toNat + n - 1) :
    exec (.drw x y n) s = .next (s.halt (.outOfMemory (max s.i.toNat 4096))) := by
  simp only [exec, execDrw, outOfRange_of_outside hn h]
  rfl

theorem exec_ldB_outside (x : Reg) (h : 4096 ≤ s.i.toNat + 2) :
    exec (.ldB x) s = .next (s.halt (.outOfMemory (max s.i.toNat 4096))) := by
  simp only [exec, execLdB, outOfRange_of_outside (len := 3) (by decide) h]
  rfl

theorem exec_storeRegs_outside {x : Reg} (h : 4096 ≤ s.i.toNat + x.val) :
    exec (.storeRegs x) s = .next (s.halt (.outOfMemory (max s.i.toNat 4096))) := by
  simp only [exec, execStoreRegs, outOfRange_of_outside (len := regCount x) (Nat.succ_pos _) h]
  rfl

theorem exec_loadRegs_outside {x : Reg} (h : 4096 ≤ s.i.toNat + x.val) :
    exec (.loadRegs x) s = .next (s.halt (.outOfMemory (max s.i.toNat 4096))) := by
  simp only [exec, execLoadRegs, outOfRange_of_outside (len := regCount x) (Nat.succ_pos _) h]
  rfl

theorem State.skipOnKey_outOfRange {x : Reg} (want : Bool) (h : 15 < (s.getV x).toNat) :
    s.skipOnKey x want = .next (s.halt (.keyIndexOutOfRange (s.getV x))) := by
  have hkey : ¬ isKeyIndex (s.getV x) = true := by
    rw [isKeyIndex, decide_eq_true_eq]
    omega
  rw [State.skipOnKey, if_neg hkey]
  rfl

/-- A row of the table, where its condition holds and where it does not. -/
theorem raised_of_eq_some {P : Prop} [Decidable P] {e e' : HaltError} (h : (if P then some e' else none) = some e) :
    P ∧ e' = e := by
  simpa using h

theorem not_raised_of_eq_none {P : Prop} [Decidable P] {e : HaltError} (h : (if P then some e else none) = none) : ¬ P := by
  simpa using h

/-- An error of the table is raised, and commits nothing but STATUS and the report. -/
theorem exec_of_raisedBy {i : Instr} {e : HaltError} (he : raisedBy s i = some e) : exec i s = .next (s.halt e) := by
  cases i
  case ret =>
    obtain ⟨hempty, rfl⟩ := raised_of_eq_some he
    exact execRet_underflow hempty
  case call nnn =>
    obtain ⟨hfull, rfl⟩ := raised_of_eq_some he
    exact exec_call_full nnn hfull
  case drw x y n =>
    obtain ⟨⟨hn, hout⟩, rfl⟩ := raised_of_eq_some he
    exact exec_drw_outside x y hn hout
  case ldB x =>
    obtain ⟨hout, rfl⟩ := raised_of_eq_some he
    exact exec_ldB_outside x hout
  case storeRegs x =>
    obtain ⟨hout, rfl⟩ := raised_of_eq_some he
    exact exec_storeRegs_outside hout
  case loadRegs x =>
    obtain ⟨hout, rfl⟩ := raised_of_eq_some he
    exact exec_loadRegs_outside hout
  case skp x =>
    obtain ⟨hkey, rfl⟩ := raised_of_eq_some he
    exact State.skipOnKey_outOfRange true hkey
  case sknp x =>
    obtain ⟨hkey, rfl⟩ := raised_of_eq_some he
    exact State.skipOnKey_outOfRange false hkey
  all_goals exact nomatch he

end Errors

/-- Settles O21. -/
theorem stackErrorsHalt : Obligations.StackErrorsHalt :=
  fun _ => ⟨exec_call_full, execRet_underflow⟩

/-- Settles O44. -/
theorem accessOutsideMemoryHalts : Obligations.AccessOutsideMemoryHalts :=
  fun _ x y => ⟨fun _ hn => exec_drw_outside x y hn, exec_ldB_outside x,
    fun h => ⟨exec_storeRegs_outside h, exec_loadRegs_outside h⟩⟩

/-- Settles O52. -/
theorem keyIndexAboveFifteenHalts : Obligations.KeyIndexAboveFifteenHalts :=
  fun _ _ h => ⟨State.skipOnKey_outOfRange true h, State.skipOnKey_outOfRange false h⟩

/-! ### The footprint of an instruction -/

/-- What an instruction may write (the effect lines of its rule, 41 to 45). -/
def footprint (s : State) : Instr → Footprint
  | .jp _ | .jpV0 _ | .seImm _ _ | .sneImm _ _ | .seReg _ _ | .sneReg _ _ | .skp _ | .sknp _ => {}
  | .call _ | .ret => { stack := true }
  | .cls => { screen := true }
  | .drw _ _ _ => { regs := [VF], screen := true }
  | .ldImm x _ | .addImm x _ | .ldReg x _ | .orReg x _ | .andReg x _ | .xorReg x _ | .rnd x _ | .ldVxDT x => { regs := [x] }
  | .addReg x _ | .subReg x _ | .shr x _ | .shl x _ => { regs := [x, VF] }
  | .subn _ y => { regs := [y, VF] }
  | .ldI _ | .addI _ | .ldF _ => { index := true }
  | .ldB _ => { storeBase := s.i.toNat, storeLen := 3 }
  | .storeRegs x => { index := true, storeBase := s.i.toNat, storeLen := x.val + 1 }
  | .loadRegs x => { regs := (List.finRange 16).filter (fun j => j ≤ x), index := true }
  | .ldVxK _ => { keyWait := true }
  | .ldDTVx _ => { delay := true }
  | .ldSTVx _ => { sound := true }

/-- What an instruction keeps, whatever else it does. -/
theorem Executes.frame {i : Instr} {s : State} {f : Footprint} {P : State → Prop} (h : Executes i s f P) :
    Executes i s f fun _ => True :=
  h.imp fun _ _ => trivial

/-- Where the table gives no error, an instruction completes within its footprint; 00EE for an SP in its buffer. -/
theorem executes_footprint {i : Instr} {s : State} (hsp : i = .ret → s.sp.toNat ≤ 32) (he : raisedBy s i = none) :
    Executes i s (footprint s i) fun _ => True := by
  cases i
  case cls => exact (clearScreenClearsAndMarksDirty s).1.frame
  case ret => exact (executes_ret (Nat.le_of_not_lt (not_raised_of_eq_none he)) (hsp rfl)).frame
  case jp nnn => exact (jumpSetsPc s nnn).1.frame
  case call nnn => exact (executes_call nnn (Nat.le_of_not_lt (not_raised_of_eq_none he))).frame
  case seImm x nn => exact (skipsCompareWithImmediate s x nn).1.frame
  case sneImm x nn => exact (skipsCompareWithImmediate s x nn).2.1.frame
  case seReg x y => exact (skipsCompareRegisters s x y).1.frame
  case sneReg x y => exact (skipsCompareRegisters s x y).2.1.frame
  case ldImm | addImm | ldReg | orReg | andReg | xorReg | rnd | ldVxDT => exact (executes_setV rfl).frame
  case addReg | subReg | subn => exact (executes_setV_flag rfl).frame
  case shr => exact (executes_flag_setV (op := (· >>> 1)) rfl).frame
  case shl => exact (executes_flag_setV (op := (· <<< 1)) rfl).frame
  case ldI | addI | ldF => exact (executes_setIndex rfl).frame
  case jpV0 nnn => exact (indexedJumpAddsV0 s nnn).frame
  case drw x y n =>
    have hin := not_raised_of_eq_none he
    exact (executes_drw s x y (by omega)).frame
  case skp x => exact (keySkipsTestTheSampledKey s x (Nat.le_of_not_lt (not_raised_of_eq_none he))).1.frame
  case sknp x => exact (keySkipsTestTheSampledKey s x (Nat.le_of_not_lt (not_raised_of_eq_none he))).2.frame
  case ldVxK x => exact (keyWaitBegins s x).frame
  case ldDTVx => exact (executes_setDelay rfl).frame
  case ldSTVx => exact (executes_setSound rfl).frame
  case ldB x => exact (bcdStoresThreeDigits s x (Nat.lt_of_not_le (not_raised_of_eq_none he))).frame
  case storeRegs x => exact (storeRegistersFillsMemory s x (Nat.lt_of_not_le (not_raised_of_eq_none he))).frame
  case loadRegs x => exact (loadRegistersReadsMemory s x (Nat.lt_of_not_le (not_raised_of_eq_none he))).frame

/-- Settles O12: the two halves are `exec_of_raisedBy` and `executes_footprint`. -/
theorem errorsAreExactlyThoseOfTheTable : Obligations.ErrorsAreExactlyThoseOfTheTable := by
  intro i s hsp
  refine ⟨fun e he => exec_of_raisedBy he, fun he => ?_⟩
  obtain ⟨t, hnext, hreport, hkeeps, -⟩ := executes_footprint (fun _ => hsp) he
  exact ⟨t, hnext, hreport, hkeeps.status⟩

/-! ### What an instruction can do -/

section Writers
variable {i : Instr} {s t : State}

/-- 00EE answers no next state for an SP beyond the buffer (log 11). -/
theorem sp_le_of_ret_next (hnext : exec .ret s = .next t) : s.sp.toNat ≤ stackBytes := by
  by_contra hout
  exact nomatch (execRet_outsideBuffer (Nat.lt_of_not_le hout)).symm.trans hnext

/-- An instruction that answers a next state has raised an error of the table or has completed within its footprint. -/
theorem exec_next_cases (hnext : exec i s = .next t) :
    (∃ e, raisedBy s i = some e ∧ t = s.halt e) ∨ Keeps (footprint s i) s t := by
  cases he : raisedBy s i with
  | some e =>
    have ht : s.halt e = t := Host.Outcome.next.inj ((exec_of_raisedBy he).symm.trans hnext)
    exact .inl ⟨e, rfl, ht.symm⟩
  | none =>
    obtain ⟨t', hnext', -, hkeeps, -⟩ := executes_footprint (fun hret => sp_le_of_ret_next (hret ▸ hnext)) he
    obtain rfl : t' = t := Host.Outcome.next.inj (hnext'.symm.trans hnext)
    exact .inr hkeeps

/-- No instruction changes the parameters. -/
theorem exec_cfg (hnext : exec i s = .next t) : t.cfg = s.cfg := by
  obtain ⟨e, -, rfl⟩ | hkeeps := exec_next_cases hnext
  · rfl
  · exact hkeeps.cfg

/-- The registers of the footprint are those of R23. -/
theorem mem_footprint_regs_iff (r : Reg) : r ∈ (footprint s i).regs ↔ writesRegister i r = true := by
  cases i <;> simp [footprint, writesRegister]

theorem footprint_stack (hcall : ∀ nnn, i ≠ .call nnn) (hret : i ≠ .ret) : (footprint s i).stack = false := by
  cases i
  case call nnn => exact absurd rfl (hcall nnn)
  case ret => exact absurd rfl hret
  all_goals rfl

theorem footprint_delay (h : ∀ x, i ≠ .ldDTVx x) : (footprint s i).delay = false := by
  cases i
  case ldDTVx x => exact absurd rfl (h x)
  all_goals rfl

theorem footprint_sound (h : ∀ x, i ≠ .ldSTVx x) : (footprint s i).sound = false := by
  cases i
  case ldSTVx x => exact absurd rfl (h x)
  all_goals rfl

theorem footprint_screen (hcls : i ≠ .cls) (hdrw : ∀ x y n, i ≠ .drw x y n) : (footprint s i).screen = false := by
  cases i
  case cls => exact absurd rfl hcls
  case drw x y n => exact absurd rfl (hdrw x y n)
  all_goals rfl

theorem footprint_keyWait (h : ∀ x, i ≠ .ldVxK x) : (footprint s i).keyWait = false := by
  cases i
  case ldVxK x => exact absurd rfl (h x)
  all_goals rfl

theorem footprint_index (hldI : ∀ nnn, i ≠ .ldI nnn)
    (h : ∀ x, i ≠ .addI x ∧ i ≠ .ldF x ∧ i ≠ .storeRegs x ∧ i ≠ .loadRegs x) : (footprint s i).index = false := by
  cases i
  case ldI nnn => exact absurd rfl (hldI nnn)
  case addI x => exact absurd rfl (h x).1
  case ldF x => exact absurd rfl (h x).2.1
  case storeRegs x => exact absurd rfl (h x).2.2.1
  case loadRegs x => exact absurd rfl (h x).2.2.2
  all_goals rfl

theorem footprint_memory (h : ∀ x, i ≠ .ldB x ∧ i ≠ .storeRegs x) :
    (footprint s i).storeBase + (footprint s i).storeLen = 0 := by
  cases i
  case ldB x => exact absurd rfl (h x).1
  case storeRegs x => exact absurd rfl (h x).2
  all_goals rfl

end Writers

/-- Settles O59: an error writes no register, a completed instruction those of its footprint. -/
theorem onlyNamedRegistersAreWritten : Obligations.OnlyNamedRegistersAreWritten := by
  intro i s t r hnext hr
  obtain ⟨e, -, rfl⟩ | hkeeps := exec_next_cases hnext
  · rfl
  · refine hkeeps.regs r fun hmem => ?_
    exact Bool.false_ne_true (hr.symm.trans ((mem_footprint_regs_iff r).1 hmem))

/-- Settles O60: as O59, piece by piece of the footprint. -/
theorem eachPieceOfStateHasItsWriters : Obligations.EachPieceOfStateHasItsWriters := by
  intro i s t hnext
  obtain ⟨e, -, rfl⟩ | hkeeps := exec_next_cases hnext
  · exact ⟨fun _ _ => ⟨rfl, rfl⟩, fun _ => rfl, fun _ => rfl, fun _ _ => ⟨rfl, rfl⟩, fun _ => rfl, fun _ _ => rfl,
      fun _ _ => rfl⟩
  · refine ⟨fun hcall hret => ?_, fun h => ?_, fun h => ?_, fun hcls hdrw => ?_, fun h => ?_, fun hldI h => ?_, fun h a => ?_⟩
    · exact (hkeeps.stack (footprint_stack hcall hret)).symm
    · exact hkeeps.delay (footprint_delay h)
    · exact hkeeps.sound (footprint_sound h)
    · exact hkeeps.screen (footprint_screen hcls hdrw)
    · exact hkeeps.keyWait (footprint_keyWait h)
    · exact hkeeps.index (footprint_index hldI h)
    · exact hkeeps.memory a (.inr (footprint_memory h ▸ Nat.zero_le a))

end Sys2Proof.Machine
end

section
/-! PROOF of OtherInstructionsDoNotReadTheInputs (40_step_cycle.md R110, 60_exceptions.md R251, R252): the sample of the inputs as a
value that an instruction carries along. -/

namespace Sys2Proof.Machine

section Inputs
variable {i : Instr} {s t : State} {input : StepInput}

/-- No error of the table depends on the inputs. -/
theorem raisedBy_sample : raisedBy (s.sample input) i = raisedBy s i := by
  cases i <;> rfl

/-- The key test looks at the keys of the sample, not at the random byte. -/
theorem skipOnKey_sample {x : Reg} {want : Bool} (hkeys : input.keys = s.input.keys) (hnext : s.skipOnKey x want = .next t) :
    (s.sample input).skipOnKey x want = .next (t.sample input) := by
  have hpressed : pressed input = pressed s.input := by
    unfold pressed
    rw [hkeys]
  simp only [State.skipOnKey, State.getV_sample, State.sample_input, hpressed]
  rw [State.skipOnKey] at hnext
  split_ifs at hnext ⊢
  all_goals
    obtain rfl := Host.Outcome.next.inj hnext
    rfl

/-- With another sample an instruction answers the same next state, when the keys are the same for the key tests and the random byte
is the same for CXNN. An instruction with several outcomes has the same one, since raising an error does not depend on the inputs. -/
theorem exec_sample (hkeys : (∃ x, i = .skp x ∨ i = .sknp x) → input.keys = s.input.keys)
    (hrnd : (∃ x nn, i = .rnd x nn) → input.rnd = s.input.rnd) (hnext : exec i s = .next t) :
    exec i (s.sample input) = .next (t.sample input) := by
  cases he : raisedBy s i with
  | some e =>
    obtain rfl := Host.Outcome.next.inj ((exec_of_raisedBy he).symm.trans hnext)
    exact exec_of_raisedBy (raisedBy_sample.trans he)
  | none =>
    cases i
    case ret =>
      have h2 : 2 ≤ s.sp.toNat := Nat.le_of_not_lt (not_raised_of_eq_none he)
      have h32 : s.sp.toNat ≤ stackBytes := sp_le_of_ret_next hnext
      obtain rfl := Host.Outcome.next.inj ((execRet_value h2 h32).symm.trans hnext)
      exact execRet_value (s := s.sample input) h2 h32
    case call nnn =>
      have hroom : s.sp.toNat + 2 ≤ stackBytes := Nat.le_of_not_lt (not_raised_of_eq_none he)
      obtain rfl := Host.Outcome.next.inj ((exec_call_room nnn hroom).symm.trans hnext)
      exact exec_call_room (s := s.sample input) nnn hroom
    case drw x y n =>
      have hin := not_raised_of_eq_none he
      have hin : n = 0 ∨ s.i.toNat + n ≤ 4096 := by omega
      obtain rfl := Host.Outcome.next.inj ((exec_drw_inside x y hin).symm.trans hnext)
      exact exec_drw_inside (s := s.sample input) x y hin
    case ldB x =>
      have hin : s.i.toNat + 2 < 4096 := Nat.lt_of_not_le (not_raised_of_eq_none he)
      obtain rfl := Host.Outcome.next.inj ((exec_ldB_inside x hin).symm.trans hnext)
      exact exec_ldB_inside (s := s.sample input) x hin
    case storeRegs x =>
      have hin : s.i.toNat + x.val < 4096 := Nat.lt_of_not_le (not_raised_of_eq_none he)
      obtain rfl := Host.Outcome.next.inj ((exec_storeRegs_inside hin).symm.trans hnext)
      exact exec_storeRegs_inside (s := s.sample input) hin
    case loadRegs x =>
      have hin : s.i.toNat + x.val < 4096 := Nat.lt_of_not_le (not_raised_of_eq_none he)
      obtain rfl := Host.Outcome.next.inj ((exec_loadRegs_inside hin).symm.trans hnext)
      exact exec_loadRegs_inside (s := s.sample input) hin
    case skp x => exact skipOnKey_sample (hkeys ⟨x, .inl rfl⟩) hnext
    case sknp x => exact skipOnKey_sample (hkeys ⟨x, .inr rfl⟩) hnext
    case rnd x nn =>
      obtain rfl := Host.Outcome.next.inj hnext
      simp only [exec, execRnd, State.sample_input, hrnd ⟨x, nn, rfl⟩]
      rfl
    all_goals
      obtain rfl := Host.Outcome.next.inj hnext
      rfl

end Inputs

/-- Settles O58: each clause is `exec_sample`, the other input being the same. -/
theorem otherInstructionsDoNotReadTheInputs : Obligations.OtherInstructionsDoNotReadTheInputs := by
  intro i s t input hnext
  refine ⟨fun hi hkeys => ?_, fun hi hrnd => ?_⟩
  · exact exec_sample (fun _ => hkeys) (fun ⟨x, nn, hrnd⟩ => absurd hrnd (hi x nn)) hnext
  · exact exec_sample (fun ⟨x, hkey⟩ => hkey.elim (absurd · (hi x).1) (absurd · (hi x).2)) (fun _ => hrnd) hnext

end Sys2Proof.Machine
end

section
/-! PROOF of StepRunsTheDecodedInstruction, InvalidWordIsSkippedAndReported, FetchOutsideMemoryHalts, HaltedStepChangesNothing,
KeyWaitStoresTheLowestPressedKey and StoppedStateStaysStopped (40_step_cycle.md R101 to R108, 70_reset_and_hazards.md R281): the Step
command, by STATUS, the key-wait latch and the fetch. -/

namespace Sys2Proof.Machine

section StepCommand
variable {s : State} {input : StepInput}

/-! ### Halted, or fetching -/

/-- Settles O10. -/
theorem haltedStepChangesNothing : Obligations.HaltedStepChangesNothing :=
  fun s input _ hc hs => (step_of_nextCommand hc).trans (State.stepCommand_halted (s := s.afterTaking.sample input) hs)

/-- Running and not waiting, a Step fetches. -/
theorem step_fetches (hc : s.nextCommand = .step input) (hs : s.status = .running) (hk : s.kw = none) :
    step s = (s.afterTaking.sample input).fetchExecute :=
  (step_of_nextCommand hc).trans (State.stepCommand_fetching (s := s.afterTaking.sample input) hs hk)

/-- Settles O7. -/
theorem stepRunsTheDecodedInstruction : Obligations.StepRunsTheDecodedInstruction := by
  intro s input i ⟨hc, hs, hk, hpc⟩ hd
  rw [step_fetches hc hs hk]
  exact State.fetchExecute_instruction (s := s.afterTaking.sample input) hpc hd

/-- Settles O8. -/
theorem invalidWordIsSkippedAndReported : Obligations.InvalidWordIsSkippedAndReported := by
  rintro s input w why ⟨hc, hs, hk, hpc⟩ rfl hd
  rw [step_fetches hc hs hk]
  exact State.fetchExecute_invalid (s := s.afterTaking.sample input) hpc hd

/-- Settles O9: of the two bytes at PC, the first missing one is PC or, at the last address, the one behind it. -/
theorem fetchOutsideMemoryHalts : Obligations.FetchOutsideMemoryHalts := by
  intro s input hc hs hk hpc
  have hmissing : outOfRange s.pc.toNat 2 = some (if s.pc.toNat ≥ 4096 then s.pc.toNat else s.pc.toNat + 1) := by
    rw [outOfRange_of_outside (len := 2) (by decide) hpc]
    congr 1
    split_ifs <;> omega
  rw [step_fetches hc hs hk]
  exact State.fetchExecute_outside (s := s.afterTaking.sample input) hmissing

/-! ### The key wait -/

section KeyWait
variable (r : Reg)

theorem State.keyWaitStep_pressed {k : Reg} (h : firstPressed s.input = some k) :
    s.keyWaitStep r = { s.setV r (BitVec.ofNat 8 k.val) with kw := none, report := .keyResolved k } := by
  rw [State.keyWaitStep, h]

theorem State.keyWaitStep_notPressed (h : firstPressed s.input = none) :
    s.keyWaitStep r = { s with report := .keyWaiting } := by
  rw [State.keyWaitStep, h]

/-- It writes the pending register and the latch, and nothing else. -/
theorem State.keyWaitStep_keeps : Keeps { regs := [r], keyWait := true } s (s.keyWaitStep r) := by
  cases h : firstPressed s.input with
  | none =>
    rw [State.keyWaitStep_notPressed r h]
    exact Keeps.of_pc_report _ rfl
  | some k =>
    rw [State.keyWaitStep_pressed r h]
    constructor
    case regs => exact fun q hq => State.getV_setV_other s _ (List.ne_of_not_mem_cons hq)
    case keyWait => exact nofun
    case stack | screen => exact fun _ => ⟨rfl, rfl⟩
    case schedule => exact ⟨rfl, rfl⟩
    all_goals intros; rfl

end KeyWait

/-- Settles O11: the scan finds the lowest pressed key, and none exactly when no key is pressed. -/
theorem keyWaitStoresTheLowestPressedKey : Obligations.KeyWaitStoresTheLowestPressedKey := by
  intro s input r hc hs hk
  have hstep : step s = .next ((s.afterTaking.sample input).keyWaitStep r) :=
    (step_of_nextCommand hc).trans (State.stepCommand_waiting (s := s.afterTaking.sample input) hs hk)
  refine ⟨fun k hpressed hlowest => ?_, fun hnone => ?_⟩
  · have hscan : firstPressed (s.afterTaking.sample input).input = some k := firstPressed_eq_some.2 ⟨hpressed, hlowest⟩
    have hkeeps := (s.afterTaking.sample input).keyWaitStep_keeps r
    rw [State.keyWaitStep_pressed r hscan] at hstep hkeeps
    refine ⟨_, hstep, ?_, rfl, rfl, rfl, hkeeps⟩
    have hbyte : (BitVec.ofNat 8 k.val).toNat = k.val := by
      rw [BitVec.toNat_ofNat]
      omega
    exact (congrArg BitVec.toNat (State.getV_setV_same ..)).trans hbyte
  · have hscan : firstPressed (s.afterTaking.sample input).input = none := firstPressed_eq_none.2 hnone
    rw [hstep, State.keyWaitStep_notPressed r hscan]
    rfl

end StepCommand

/-! ### The stopped state -/

/-- Settles O27: the word at PC is the jump to PC, so the Step sets PC to what it is. -/
theorem stoppedStateStaysStopped : Obligations.StoppedStateStaysStopped := by
  intro s a input hstopped hc
  obtain ⟨hs, hk, hpc, ha, hword⟩ := hstopped
  have hpcNat : s.pc.toNat = a.toNat := by rw [hpc, toNat_zextAddr]
  have hd : decodeWord (joinBytes (s.readByte s.pc.toNat) (s.readByte (s.pc.toNat + 1))) = .ok (.jp a) := by
    rw [hpcNat, hword]
    exact decodeWord_encode (i := .jp a) rfl
  have hfetching : s.Fetching input := ⟨hc, hs, hk, by rw [hpcNat]; show a.toNat + 2 ≤ 4096; omega⟩
  have hstep : step s = .next { s.afterTaking with input := input, report := .executed } := by
    rw [stepRunsTheDecodedInstruction s input (.jp a) hfetching hd, exec, execJp, ← hpc]
    rfl
  refine ⟨hstep, fun t ht => ?_⟩
  obtain rfl := Host.Outcome.next.inj (hstep.symm.trans ht)
  exact ⟨hs, hk, hpc, ha, hword⟩

end Sys2Proof.Machine
end

section
/-! PROOF of TickCountsBothTimersDown, ResetPutsEverythingAtItsValue, LoadCopiesTheImageOrChangesNothing, OnlyResetEndsAHalt and
ParametersNeverChange (60_exceptions.md R236, R245, R250, 70_reset_and_hazards.md R270, R273): the commands other than Step, and what
every command keeps. -/

namespace Sys2Proof.Machine

/-- Settles O53. -/
theorem tickCountsBothTimersDown : Obligations.TickCountsBothTimersDown :=
  fun s hc => ⟨_, step_of_nextCommand hc, toNat_countDown s.dt, toNat_countDown s.st, rfl⟩

/-! ### Reset -/

/-- The reset contents of memory: FONT, and 0 above it (R40). -/
theorem Memory.background_font (c : Config) {a : Nat} (h : a < fontBytes) : Memory.background c a = c.font[a] := by
  rw [Memory.background, Vector.getElem?_eq_getElem h, Option.getD_some]

theorem Memory.background_above (c : Config) {a : Nat} (h : fontBytes ≤ a) : Memory.background c a = 0 := by
  rw [Memory.background, Vector.getElem?_eq_none h, Option.getD_none]

/-- Settles O55: memory lists nothing after a Reset, so it reads as the reset contents. -/
theorem resetPutsEverythingAtItsValue : Obligations.ResetPutsEverythingAtItsValue := by
  intro s hc
  refine ⟨_, step_of_nextCommand hc, fun a h => Memory.background_font s.cfg h, fun a h => Memory.background_above s.cfg h,
    fun r => ?_, rfl, rfl, rfl, fun j hj => ?_, rfl, rfl, fun px py => FrameBuffer.pixel_clear px py, rfl, rfl, rfl, rfl⟩
  · exact Vector.getElem_replicate r.isLt
  · exact Vector.getElem_replicate hj

/-! ### Load -/

/-- Settles O56: an image that fits is stored at 0x200. -/
theorem loadCopiesTheImageOrChangesNothing : Obligations.LoadCopiesTheImageOrChangesNothing := by
  intro s image hc
  have hstep : step s = .next (s.afterTaking.load image) := step_of_nextCommand hc
  refine ⟨fun hfits => ?_, fun hlong => ?_⟩
  · rw [State.load_fits hfits] at hstep
    refine ⟨_, hstep, s.afterTaking.readByte_storeBytes_inside progBase image, rfl, rfl, ?_⟩
    constructor
    case memory => exact s.afterTaking.readByte_storeBytes_outside progBase image
    case stack | screen => exact fun _ => ⟨rfl, rfl⟩
    case schedule => exact ⟨rfl, rfl⟩
    all_goals intros; rfl
  · rw [hstep, State.load_tooLong hlong]

/-! ### What every command keeps -/

section Kept
variable {s t : State}

/-- Load touches memory, PC and the report only. -/
theorem State.load_status (s : State) (image : List Byte) : (s.load image).status = s.status := by
  unfold State.load
  split <;> rfl

theorem State.load_cfg (s : State) (image : List Byte) : (s.load image).cfg = s.cfg := by
  unfold State.load
  split <;> rfl

/-- Settles O57: by the command. -/
theorem onlyResetEndsAHalt : Obligations.OnlyResetEndsAHalt := by
  intro s t e hs hreset hnext
  rw [step_of_nextCommand rfl] at hnext
  cases hc : s.nextCommand with
  | reset => exact absurd hc hreset
  | load image =>
    rw [hc] at hnext
    obtain rfl := Host.Outcome.next.inj hnext
    exact (State.load_status s.afterTaking image).trans hs
  | step input =>
    rw [hc, State.runCommand, State.stepCommand_halted (s := s.afterTaking.sample input) hs] at hnext
    obtain rfl := Host.Outcome.next.inj hnext
    exact hs
  | tick | clearDirty =>
    rw [hc] at hnext
    obtain rfl := Host.Outcome.next.inj hnext
    exact hs

theorem State.fetchExecute_cfg (hnext : s.fetchExecute = .next t) : t.cfg = s.cfg := by
  unfold State.fetchExecute at hnext
  split at hnext
  · obtain rfl := Host.Outcome.next.inj hnext
    rfl
  · split at hnext
    · exact exec_cfg hnext
    · obtain rfl := Host.Outcome.next.inj hnext
      rfl

theorem State.stepCommand_cfg (hnext : s.stepCommand = .next t) : t.cfg = s.cfg := by
  cases hs : s.status with
  | halted e =>
    rw [State.stepCommand_halted hs] at hnext
    obtain rfl := Host.Outcome.next.inj hnext
    rfl
  | running =>
    cases hk : s.kw with
    | some r =>
      rw [State.stepCommand_waiting hs hk] at hnext
      obtain rfl := Host.Outcome.next.inj hnext
      exact (s.keyWaitStep_keeps r).cfg
    | none =>
      rw [State.stepCommand_fetching hs hk] at hnext
      exact State.fetchExecute_cfg hnext

/-- Settles O17: by the command. -/
theorem parametersNeverChange : Obligations.ParametersNeverChange := by
  intro s t hnext
  rw [step_of_nextCommand rfl] at hnext
  cases hc : s.nextCommand with
  | load image =>
    rw [hc] at hnext
    obtain rfl := Host.Outcome.next.inj hnext
    exact s.afterTaking.load_cfg image
  | step input =>
    rw [hc] at hnext
    exact State.stepCommand_cfg (s := s.afterTaking.sample input) hnext
  | reset | tick | clearDirty =>
    rw [hc] at hnext
    obtain rfl := Host.Outcome.next.inj hnext
    rfl

end Kept

end Sys2Proof.Machine
end

section
/-! PROOF of CanonicalMemoriesThatReadAlikeAreEqual (log 22): a canonical memory lists an address exactly when it does not read as the
reset contents. -/

namespace Sys2Proof.Machine

section Canonical
variable {c : Config} {m m' : Memory} {p : Host.Cell}

/-- At rising addresses every listed cell is the one that is read. -/
theorem Memory.read_of_mem (hrising : m.Pairwise fun p q => p.1 < q.1) (hp : p ∈ m) : Memory.read c m p.1 = p.2 := by
  induction m with
  | nil => exact nomatch hp
  | cons cell rest ih =>
    obtain ⟨hfirst, hrest⟩ := List.pairwise_cons.1 hrising
    rcases List.mem_cons.1 hp with rfl | hp
    · exact if_pos rfl
    · exact (if_neg (hfirst p hp).ne').trans (ih hrest hp)

theorem Memory.mem_of_read (hrising : m.Pairwise fun p q => p.1 < q.1) (hread : Memory.read c m p.1 = p.2)
    (hother : p.2 ≠ Memory.background c p.1) : p ∈ m := by
  by_contra hp
  refine hother (hread.symm.trans (Memory.read_of_not_listed fun q hq haddr => hp ?_))
  have hbyte : q.2 = p.2 := by rw [← Memory.read_of_mem (c := c) hrising hq, haddr, hread]
  exact Prod.ext haddr hbyte ▸ hq

/-- What one canonical memory lists, another one that reads alike lists too. -/
theorem Memory.subset_of_read_eq (hm : Memory.wf c m) (hm' : Memory.wf c m')
    (hread : ∀ a, a < 4096 → Memory.read c m a = Memory.read c m' a) : m ⊆ m' := by
  intro p hp
  obtain ⟨haddr, hother⟩ := hm.2 p hp
  refine Memory.mem_of_read hm'.1 ?_ hother
  rw [← hread p.1 haddr, Memory.read_of_mem hm.1 hp]

end Canonical

/-- Settles O45: each lists what the other lists, in the order of the addresses. -/
theorem canonicalMemoriesThatReadAlikeAreEqual : Obligations.CanonicalMemoriesThatReadAlikeAreEqual := by
  intro c m m' hm hm' hread
  have hirrefl : Std.Irrefl fun p q : Host.Cell => p.1 < q.1 := ⟨fun p => Nat.lt_irrefl p.1⟩
  have hantisymm : Std.Antisymm fun p q : Host.Cell => p.1 < q.1 := ⟨fun p q h h' => absurd h' (Nat.lt_asymm h)⟩
  exact List.Subset.antisymm_of_pairwise hm.1 hm'.1 (Memory.subset_of_read_eq hm hm' hread)
    (Memory.subset_of_read_eq hm' hm fun a ha => (hread a ha).symm)

end Sys2Proof.Machine
end

section
/-! PROOF of ResetStateIsLegal, EveryStepKeepsTheStateLegal, EveryStepAnswersANextState and EveryRunGoesOnAndStaysLegal (10_state.md
R26, R37, 20_memory.md R58, 60_exceptions.md R231): from a legal state every instruction, then every command, answers a legal state. -/

namespace Sys2Proof.Machine

/-! ### What keeps a state legal -/

section Rules
variable {s t : State}

/-- Of the state, a legal state restricts memory, the stack, STATUS and PC only. -/
theorem State.Inv.of_kept (hs : s.Inv) (h : t = { t with mem := s.mem, cfg := s.cfg, stk := s.stk, sp := s.sp, status := s.status })
    (hpc : t.PcLegal) : t.Inv where
  memory := by rw [h]; exact hs.memory
  sp := by rw [h]; exact hs.sp
  frames := by rw [h]; exact hs.frames
  pc := hpc
  status := by rw [h]; exact hs.status

theorem State.Inv.halt (hs : s.Inv) {e : HaltError} (he : e.Legal) : (s.halt e).Inv where
  memory := hs.memory
  sp := hs.sp
  frames := hs.frames
  pc := hs.pc
  status := fun _ h => Status.halted.inj h ▸ he

theorem State.Inv.storeBytes (hs : s.Inv) {a : Nat} {bs : List Byte} (h : a + bs.length ≤ memBytes) :
    (s.storeBytes a bs).Inv where
  memory := Memory.wf_writeBytes bs a h hs.memory
  sp := hs.sp
  frames := hs.frames
  pc := hs.pc
  status := hs.status

/-- 00EE takes the top frame away; the frames below it stay. -/
theorem State.Inv.popped (hs : s.Inv) (h2 : 2 ≤ s.sp.toNat) : State.Inv { s with sp := s.sp - 2 } where
  memory := hs.memory
  sp := by
    obtain ⟨hle, heven⟩ := hs.sp
    have hsp := toNat_sp_sub_two h2
    exact ⟨show (s.sp - 2).toNat ≤ stackBytes by omega, show (s.sp - 2).toNat % 2 = 0 by omega⟩
  frames := fun j hj => by
    have hj : 2 * j + 2 ≤ (s.sp - 2).toNat := hj
    rw [toNat_sp_sub_two h2] at hj
    exact hs.frames j (by omega)
  pc := hs.pc
  status := hs.status

/-- The frame that Push adds is the return address; the frames below it stay. -/
theorem State.frame_pushed {j : Nat} (hroom : s.sp.toNat + 2 ≤ stackBytes) (heven : s.sp.toNat % 2 = 0)
    (hj : 2 * j + 2 ≤ s.sp.toNat + 2) :
    State.frame { s with stk := s.pushedStack, sp := s.sp + 2 } j = if 2 * j = s.sp.toNat then s.pc + 2 else s.frame j := by
  have hhi : 2 * j < 32 := by simp only [stackBytes] at hroom; omega
  have hlo : 2 * j + 1 < 32 := by omega
  simp only [State.frame, Vector.getElem?_eq_getElem hhi, Vector.getElem?_eq_getElem hlo, Option.getD_some,
    State.getElem_pushedStack s _ hhi, State.getElem_pushedStack s _ hlo]
  have hodd : 2 * j + 1 ≠ s.sp.toNat := by omega
  by_cases htop : 2 * j = s.sp.toNat
  · have hlow : 2 * j + 1 = s.sp.toNat + 1 := by omega
    rw [if_pos htop, if_neg hodd, if_pos hlow, if_pos htop, joinBytes_high_low]
  · have hbelow : 2 * j ≠ s.sp.toNat + 1 := by omega
    have hbelow' : 2 * j + 1 ≠ s.sp.toNat + 1 := by omega
    rw [if_neg htop, if_neg hbelow, if_neg hodd, if_neg hbelow', if_neg htop]

theorem State.Inv.pushed (hs : s.Inv) (hroom : s.sp.toNat + 2 ≤ stackBytes) (hpc : (s.pc + 2).toNat ≤ 0x1000) :
    State.Inv { s with stk := s.pushedStack, sp := s.sp + 2 } where
  memory := hs.memory
  sp := by
    obtain ⟨-, heven⟩ := hs.sp
    have hsp := toNat_sp_add_two hroom
    exact ⟨show (s.sp + 2).toNat ≤ stackBytes by omega, show (s.sp + 2).toNat % 2 = 0 by omega⟩
  frames := fun j hj => by
    obtain ⟨-, heven⟩ := hs.sp
    have hj : 2 * j + 2 ≤ (s.sp + 2).toNat := hj
    rw [toNat_sp_add_two hroom] at hj
    rw [State.frame_pushed hroom heven hj]
    split_ifs with htop
    · exact hpc
    · exact hs.frames j (by omega)
  pc := hs.pc
  status := hs.status

/-- The bytes that 00EE reads are those of the top frame. -/
theorem State.Inv.topFrame (hs : s.Inv) (h2 : 2 ≤ s.sp.toNat) :
    (joinBytes ((s.stk[s.sp.toNat - 2]?).getD 0) ((s.stk[s.sp.toNat - 1]?).getD 0)).toNat ≤ 0x1000 := by
  obtain ⟨-, heven⟩ := hs.sp
  have htop := hs.frames (s.sp.toNat / 2 - 1) (by omega)
  rwa [State.frame, show 2 * (s.sp.toNat / 2 - 1) = s.sp.toNat - 2 by omega,
    show s.sp.toNat - 2 + 1 = s.sp.toNat - 1 by omega] at htop

end Rules

/-! ### Where PC can go -/

section ProgramCounter
variable {s : State}

/-- Behind a word that lies in memory. -/
theorem toNat_pc_add_two {pc : Word} (h : pc.toNat + 2 ≤ memBytes) : (pc + 2).toNat = pc.toNat + 2 := by
  simp only [memBytes] at h
  bv_omega

theorem State.advance_pcLegal (h : s.pc.toNat + 2 ≤ memBytes) : s.advance.PcLegal := by
  have hpc := toNat_pc_add_two h
  simp only [memBytes] at h
  show (s.pc + 2).toNat ≤ 0x10FE
  omega

theorem State.skipIf_pcLegal (h : s.pc.toNat + 2 ≤ memBytes) (b : Bool) : (s.advance.skipIf b).PcLegal := by
  simp only [memBytes] at h
  rw [State.PcLegal, State.skipIf_pc, State.advance_pc]
  split_ifs <;> bv_omega

/-- No sum of an address and a byte exceeds 0xFFF + 0xFF. -/
theorem toNat_jump_le (nnn : BitVec 12) (b : Byte) : (zextAddr nnn + zextByte b).toNat ≤ 0x10FE := by
  rw [toNat_zextAddr_add_zextByte]
  omega

theorem toNat_zextAddr_le (nnn : BitVec 12) : (zextAddr nnn).toNat ≤ 0x10FE := by
  rw [toNat_zextAddr]
  omega

end ProgramCounter

/-! ### The instructions -/

section Instructions
variable {s : State} {i : Instr}

/-- An address outside memory that 16 bits can hold. -/
theorem outOfMemory_legal (a : Word) : (HaltError.outOfMemory (max a.toNat 4096)).Legal := by
  have hlt : a.toNat < 0x10000 := a.isLt
  exact ⟨le_max_right .., max_lt hlt (by decide)⟩

/-- The payload of an error of the table is one that its cause can leave. -/
theorem raisedBy_legal (hs : s.Inv) {e : HaltError} (he : raisedBy s i = some e) : e.Legal := by
  obtain ⟨hle, heven⟩ : s.sp.toNat ≤ 32 ∧ s.sp.toNat % 2 = 0 := hs.sp
  cases i
  case ret =>
    obtain ⟨hempty, rfl⟩ := raised_of_eq_some he
    show s.sp.toNat = 0
    omega
  case call =>
    obtain ⟨hfull, rfl⟩ := raised_of_eq_some he
    show s.sp.toNat = 32
    omega
  case drw | ldB | storeRegs | loadRegs =>
    obtain ⟨-, rfl⟩ := raised_of_eq_some he
    exact outOfMemory_legal s.i
  case skp | sknp =>
    obtain ⟨hkey, rfl⟩ := raised_of_eq_some he
    exact hkey
  all_goals exact nomatch he

/-- From a legal state every instruction that lies in memory answers a legal state: the error of the table, or a completion. -/
theorem exec_inv (hs : s.Inv) (hpc : s.pc.toNat + 2 ≤ memBytes) : ∃ t, exec i s = .next t ∧ t.Inv := by
  cases he : raisedBy s i with
  | some e => exact ⟨_, exec_of_raisedBy he, hs.halt (raisedBy_legal hs he)⟩
  | none =>
    have hadvance := State.advance_pcLegal hpc
    cases i
    case ret =>
      have h2 : 2 ≤ s.sp.toNat := Nat.le_of_not_lt (not_raised_of_eq_none he)
      exact ⟨_, execRet_value h2 hs.sp.1, (hs.popped h2).of_kept rfl ((hs.topFrame h2).trans (by decide))⟩
    case call nnn =>
      have hroom : s.sp.toNat + 2 ≤ stackBytes := Nat.le_of_not_lt (not_raised_of_eq_none he)
      have hreturn : (s.pc + 2).toNat ≤ 0x1000 := (toNat_pc_add_two hpc).trans_le hpc
      exact ⟨_, exec_call_room nnn hroom, (hs.pushed hroom hreturn).of_kept rfl (toNat_zextAddr_le nnn)⟩
    case jp nnn => exact ⟨_, rfl, hs.of_kept rfl (toNat_zextAddr_le nnn)⟩
    case jpV0 nnn => exact ⟨_, rfl, hs.of_kept rfl (toNat_jump_le nnn _)⟩
    case seImm | sneImm | seReg | sneReg => exact ⟨_, rfl, hs.of_kept rfl (State.skipIf_pcLegal hpc _)⟩
    case skp x =>
      have hkey := Nat.le_of_not_lt (not_raised_of_eq_none he)
      exact ⟨_, State.skipOnKey_inRange true hkey, hs.of_kept rfl (State.skipIf_pcLegal hpc _)⟩
    case sknp x =>
      have hkey := Nat.le_of_not_lt (not_raised_of_eq_none he)
      exact ⟨_, State.skipOnKey_inRange false hkey, hs.of_kept rfl (State.skipIf_pcLegal hpc _)⟩
    case drw x y n =>
      have hin := not_raised_of_eq_none he
      exact ⟨_, exec_drw_inside x y (by omega), hs.of_kept rfl hadvance⟩
    case ldB x =>
      have hin : s.i.toNat + 2 < 4096 := Nat.lt_of_not_le (not_raised_of_eq_none he)
      exact ⟨_, exec_ldB_inside x hin, (hs.storeBytes (bs := bcdDigits (s.getV x)) hin).of_kept rfl hadvance⟩
    case storeRegs x =>
      have hin : s.i.toNat + x.val < 4096 := Nat.lt_of_not_le (not_raised_of_eq_none he)
      have hfits : s.i.toNat + (s.firstRegisters (regCount x)).length ≤ memBytes := by
        rw [s.length_firstRegisters_regCount]
        exact hin
      exact ⟨_, exec_storeRegs_inside hin, (hs.storeBytes hfits).of_kept rfl hadvance⟩
    case loadRegs x =>
      have hin : s.i.toNat + x.val < 4096 := Nat.lt_of_not_le (not_raised_of_eq_none he)
      exact ⟨_, exec_loadRegs_inside hin, hs.of_kept rfl hadvance⟩
    all_goals exact ⟨_, rfl, hs.of_kept rfl hadvance⟩

end Instructions

/-! ### The commands -/

section Commands
variable {s : State}

/-- Settles O13: memory lists nothing, the stack is empty, PC is 0, the machine runs. -/
theorem resetStateIsLegal : Obligations.ResetStateIsLegal := fun c =>
  { memory := Memory.wf_nil c
    sp := ⟨Nat.zero_le _, rfl⟩
    frames := fun _ h => nomatch h
    pc := Nat.zero_le _
    status := fun _ h => nomatch h }

theorem State.fetchExecute_inv (hs : s.Inv) : ∃ t, s.fetchExecute = .next t ∧ t.Inv := by
  by_cases hpc : s.pc.toNat + 2 ≤ memBytes
  · cases hd : decodeWord s.fetchWord with
    | ok i =>
      rw [State.fetchExecute_instruction hpc hd]
      exact exec_inv hs hpc
    | error why => exact ⟨_, State.fetchExecute_invalid hpc hd, hs.of_kept rfl (State.advance_pcLegal hpc)⟩
  · have hout : outOfRange s.pc.toNat 2 = some (max s.pc.toNat 4096) :=
      outOfRange_eq_some.2 ⟨by decide, Nat.lt_of_not_le hpc, rfl⟩
    exact ⟨_, State.fetchExecute_outside hout, hs.halt (outOfMemory_legal s.pc)⟩

theorem State.keyWaitStep_inv (hs : s.Inv) (r : Reg) : (s.keyWaitStep r).Inv := by
  cases h : firstPressed s.input with
  | none =>
    rw [State.keyWaitStep_notPressed r h]
    exact hs.of_kept rfl hs.pc
  | some k =>
    rw [State.keyWaitStep_pressed r h]
    exact hs.of_kept rfl hs.pc

theorem State.stepCommand_inv (hs : s.Inv) : ∃ t, s.stepCommand = .next t ∧ t.Inv := by
  cases hstatus : s.status with
  | halted e => exact ⟨_, State.stepCommand_halted hstatus, hs.of_kept rfl hs.pc⟩
  | running =>
    cases hk : s.kw with
    | some r => exact ⟨_, State.stepCommand_waiting hstatus hk, State.keyWaitStep_inv hs r⟩
    | none =>
      rw [State.stepCommand_fetching hstatus hk]
      exact State.fetchExecute_inv hs

theorem State.load_inv (hs : s.Inv) (image : List Byte) : (s.load image).Inv := by
  rcases Nat.lt_or_ge maxImage image.length with hlong | hfits
  · rw [State.load_tooLong hlong]
    exact hs.of_kept rfl hs.pc
  · have hin : progBase + image.length ≤ memBytes := by
      simp only [maxImage, memBytes, progBase] at *
      omega
    rw [State.load_fits hfits]
    exact (hs.storeBytes hin).of_kept rfl (show progBase ≤ 0x10FE by decide)

theorem State.runCommand_inv (hs : s.Inv) (c : Command) : ∃ t, s.runCommand c = .next t ∧ t.Inv := by
  cases c with
  | reset => exact ⟨_, rfl, (resetStateIsLegal s.cfg).of_kept rfl (Nat.zero_le _)⟩
  | load image => exact ⟨_, rfl, State.load_inv hs image⟩
  | step input => exact State.stepCommand_inv (hs.of_kept rfl hs.pc)
  | tick | clearDirty => exact ⟨_, rfl, hs.of_kept rfl hs.pc⟩

theorem step_inv (hs : s.Inv) : ∃ t, step s = .next t ∧ t.Inv := by
  rw [step_of_nextCommand rfl]
  exact State.runCommand_inv (s := s.afterTaking) (hs.of_kept rfl hs.pc) _

theorem run_succ {M : Host.Core} {s t : M.State} {k : Nat} (hstep : M.step s = .next t) : M.run (k + 1) s = M.run k t := by
  rw [Host.Core.run, hstep]

/-- Any number of steps. -/
theorem run_inv (hs : s.Inv) (k : Nat) : ∃ t, Host.Core.run core k s = .next t ∧ t.Inv := by
  induction k generalizing s with
  | zero => exact ⟨s, rfl, hs⟩
  | succ k ih =>
    obtain ⟨t, hstep, ht⟩ := step_inv hs
    obtain ⟨u, hrun, hu⟩ := ih ht
    exact ⟨u, (run_succ (M := core) hstep).trans hrun, hu⟩

end Commands

/-- Settles O14: the legal state of `step_inv` is the one that the step answers. -/
theorem everyStepKeepsTheStateLegal : Obligations.EveryStepKeepsTheStateLegal := by
  intro s t hs hnext
  obtain ⟨t', hnext', ht'⟩ := step_inv hs
  exact Host.Outcome.next.inj (hnext'.symm.trans hnext) ▸ ht'

/-- Settles O15. -/
theorem everyStepAnswersANextState : Obligations.EveryStepAnswersANextState := by
  intro s hs
  obtain ⟨t, hnext, -⟩ := step_inv hs
  exact ⟨t, hnext⟩

/-- Settles O16: the reset state is legal with every schedule. -/
theorem everyRunGoesOnAndStaysLegal : Obligations.EveryRunGoesOnAndStaysLegal := fun c _ k =>
  run_inv ((resetStateIsLegal c).of_kept rfl (Nat.zero_le _)) k

end Sys2Proof.Machine
end
